-- ==== Sys2Proof/Word.lean ====
section
/-!
DEFINITION. The bit-vector types of the CORE (spec/00_scope.md R6, spec/10_state.md R10): bytes, 16-bit words,
nibbles and 12-bit address immediates. All are unsigned; nothing on this machine is sign-extended (R6, R47).
-/

namespace Sys2Proof

/-- A memory byte, a general register, a timer or the immediate NN (R6). -/
abbrev Byte := BitVec 8

/-- An instruction word, PC, I or a stack slot (R5). -/
abbrev Word := BitVec 16

/-- A four-bit field: a register number X or Y, the height N, a key code (R46, R124). -/
abbrev Nib := BitVec 4

/-- The twelve-bit address immediate NNN (R46). -/
abbrev Imm12 := BitVec 12

end Sys2Proof
end

