-- ==== Sys2Proof/Syntax.lean ====
section
/-!
DEFINITION. The syntax of the CORE instruction set: one constructor per row of spec/opcode_table.json, in the table's
order, 34 in all (spec/30_encoding.md R57, R59).
A constructor's arguments are the word's fields that are not selectors: the operands X, Y, N, NN, NNN (R46) and, last, the
don't-care bits `dc` of the five rows that have them (R54). The don't-care bits choose nothing; they are kept because
FAULT.instr records the fetched word whole (spec/10_state.md R24), and so that decoding loses no bit (log entry 5).
-/

namespace Sys2Proof

/-- An instruction of the CORE. -/
inductive Instr where
  /-- CLS, 0x00E0; `dc` is instr[11:4]. -/
  | cls (dc : BitVec 8)
  /-- RET, 0x00EE; `dc` is instr[11:4]. -/
  | ret (dc : BitVec 8)
  /-- JP nnn, 0x1NNN. -/
  | jp (nnn : Imm12)
  /-- CALL nnn, 0x2NNN. -/
  | call (nnn : Imm12)
  /-- SE Vx, nn, 0x3XNN. -/
  | seImm (x : Nib) (nn : Byte)
  /-- SNE Vx, nn, 0x4XNN. -/
  | sneImm (x : Nib) (nn : Byte)
  /-- SE Vx, Vy, 0x5XY0; `dc` is instr[3:0]. -/
  | seReg (x y : Nib) (dc : BitVec 4)
  /-- LD Vx, nn, 0x6XNN. -/
  | ldImm (x : Nib) (nn : Byte)
  /-- ADD Vx, nn, 0x7XNN. -/
  | addImm (x : Nib) (nn : Byte)
  /-- LD Vx, Vy, 0x8XY0. -/
  | ldReg (x y : Nib)
  /-- OR Vx, Vy, 0x8XY1. -/
  | orReg (x y : Nib)
  /-- AND Vx, Vy, 0x8XY2. -/
  | andReg (x y : Nib)
  /-- XOR Vx, Vy, 0x8XY3. -/
  | xorReg (x y : Nib)
  /-- ADD Vx, Vy, 0x8XY4. -/
  | addReg (x y : Nib)
  /-- SUB Vx, Vy, 0x8XY5. -/
  | sub (x y : Nib)
  /-- SHR Vx, Vy, 0x8XY6. -/
  | shr (x y : Nib)
  /-- SUBN Vx, Vy, 0x8XY7. -/
  | subn (x y : Nib)
  /-- SHL Vx, Vy, 0x8XYE. -/
  | shl (x y : Nib)
  /-- SNE Vx, Vy, 0x9XY0; `dc` is instr[3:0]. -/
  | sneReg (x y : Nib) (dc : BitVec 4)
  /-- LD I, nnn, 0xANNN. -/
  | ldI (nnn : Imm12)
  /-- LD I, V0+nnn, 0xBNNN. -/
  | ldIV0 (nnn : Imm12)
  /-- RND Vx, nn, 0xCXNN. -/
  | rnd (x : Nib) (nn : Byte)
  /-- DRW Vx, Vy, n, 0xDXYN. -/
  | drw (x y n : Nib)
  /-- SKP Vx, 0xEX9E; `dc` is instr[7:4]. -/
  | skp (x : Nib) (dc : BitVec 4)
  /-- SKNP Vx, 0xEXA1; `dc` is instr[7:4]. -/
  | sknp (x : Nib) (dc : BitVec 4)
  /-- LD Vx, DT, 0xFX07. -/
  | ldVxDt (x : Nib)
  /-- LD Vx, K, 0xFX0A. -/
  | ldVxK (x : Nib)
  /-- LD DT, Vx, 0xFX15. -/
  | ldDtVx (x : Nib)
  /-- LD ST, Vx, 0xFX18. -/
  | ldStVx (x : Nib)
  /-- ADD I, Vx, 0xFX1E. -/
  | addIVx (x : Nib)
  /-- LD F, Vx, 0xFX29. -/
  | ldFVx (x : Nib)
  /-- LD B, Vx, 0xFX33. -/
  | ldBVx (x : Nib)
  /-- LD [I], Vx, 0xFX55. -/
  | ldMemVx (x : Nib)
  /-- LD Vx, [I], 0xFX65. -/
  | ldVxMem (x : Nib)
deriving DecidableEq, Repr

end Sys2Proof
end

