-- ==== Sys2Proof/Decode.lean ====
section
/-!
DEFINITION. The decoder and the encoder (spec/30_encoding.md).
Decoding is the two-level table of R48: the top nibble selects a primary row, and the groups 0x0, 0x8, 0xE (low nibble) and
0xF (low byte) select in a second table. It is total: an unmapped slot is rejected by name.
-/

namespace Sys2Proof

/-! ## The fields of a word (R46) -/

/-- OP, the top nibble instr[15:12]. -/
def opField (w : Word) : Nib := w.extractLsb' 12 4
/-- X, the second nibble instr[11:8]. -/
def xField (w : Word) : Nib := w.extractLsb' 8 4
/-- Y, the third nibble instr[7:4]. -/
def yField (w : Word) : Nib := w.extractLsb' 4 4
/-- N, the low nibble instr[3:0]. -/
def nField (w : Word) : Nib := w.extractLsb' 0 4
/-- NN, the low byte instr[7:0]. -/
def nnField (w : Word) : Byte := w.extractLsb' 0 8
/-- NNN, the low twelve bits instr[11:0]. -/
def nnnField (w : Word) : Imm12 := w.extractLsb' 0 12
/-- instr[11:4], the bits CLS and RET ignore (R54). -/
def midField (w : Word) : BitVec 8 := w.extractLsb' 4 8
/-- instr[15:8], the byte at the lower address (R32). -/
def hiByte (w : Word) : Byte := w.extractLsb' 8 8
/-- instr[7:0], the byte at the higher address (R32). -/
def loByte (w : Word) : Byte := w.extractLsb' 0 8

/-- Joins two fetched bytes big-endian: the byte at the lower address is instr[15:8] (R32, R61). -/
def joinBytes (hi lo : Byte) : Word := hi ++ lo

/-! ## Decoding (R48 to R53) -/

/-- Why bytes are no instruction. -/
inductive DecodeError where
  /-- The word's slot is unmapped (R55). -/
  | invalidOpcode (word : Word)
  /-- Fewer than the two bytes of an instruction. The CORE itself never meets this: its fetch reads two bytes or
  raises MemoryFault (R61). -/
  | truncated
deriving DecidableEq, Repr

/-- Group 0x0, keyed by the low nibble (R50). -/
def table0 (w : Word) : Except DecodeError Instr :=
  match nField w with
  | 0x0#4 => .ok (.cls (midField w))
  | 0xE#4 => .ok (.ret (midField w))
  | _ => .error (.invalidOpcode w)

/-- Group 0x8, keyed by the low nibble (R51). -/
def table8 (w : Word) : Except DecodeError Instr :=
  match nField w with
  | 0x0#4 => .ok (.ldReg (xField w) (yField w))
  | 0x1#4 => .ok (.orReg (xField w) (yField w))
  | 0x2#4 => .ok (.andReg (xField w) (yField w))
  | 0x3#4 => .ok (.xorReg (xField w) (yField w))
  | 0x4#4 => .ok (.addReg (xField w) (yField w))
  | 0x5#4 => .ok (.sub (xField w) (yField w))
  | 0x6#4 => .ok (.shr (xField w) (yField w))
  | 0x7#4 => .ok (.subn (xField w) (yField w))
  | 0xE#4 => .ok (.shl (xField w) (yField w))
  | _ => .error (.invalidOpcode w)

/-- Group 0xE, keyed by the low nibble (R52). -/
def tableE (w : Word) : Except DecodeError Instr :=
  match nField w with
  | 0xE#4 => .ok (.skp (xField w) (yField w))
  | 0x1#4 => .ok (.sknp (xField w) (yField w))
  | _ => .error (.invalidOpcode w)

/-- Group 0xF, keyed by the low byte (R53). -/
def tableF (w : Word) : Except DecodeError Instr :=
  match nnField w with
  | 0x07#8 => .ok (.ldVxDt (xField w))
  | 0x0A#8 => .ok (.ldVxK (xField w))
  | 0x15#8 => .ok (.ldDtVx (xField w))
  | 0x18#8 => .ok (.ldStVx (xField w))
  | 0x1E#8 => .ok (.addIVx (xField w))
  | 0x29#8 => .ok (.ldFVx (xField w))
  | 0x33#8 => .ok (.ldBVx (xField w))
  | 0x55#8 => .ok (.ldMemVx (xField w))
  | 0x65#8 => .ok (.ldVxMem (xField w))
  | _ => .error (.invalidOpcode w)

/-- The decoder: the primary table (R49) and its four groups (R48). -/
def decodeWord (w : Word) : Except DecodeError Instr :=
  match opField w with
  | 0x0#4 => table0 w
  | 0x1#4 => .ok (.jp (nnnField w))
  | 0x2#4 => .ok (.call (nnnField w))
  | 0x3#4 => .ok (.seImm (xField w) (nnField w))
  | 0x4#4 => .ok (.sneImm (xField w) (nnField w))
  | 0x5#4 => .ok (.seReg (xField w) (yField w) (nField w))
  | 0x6#4 => .ok (.ldImm (xField w) (nnField w))
  | 0x7#4 => .ok (.addImm (xField w) (nnField w))
  | 0x8#4 => table8 w
  | 0x9#4 => .ok (.sneReg (xField w) (yField w) (nField w))
  | 0xA#4 => .ok (.ldI (nnnField w))
  | 0xB#4 => .ok (.ldIV0 (nnnField w))
  | 0xC#4 => .ok (.rnd (xField w) (nnField w))
  | 0xD#4 => .ok (.drw (xField w) (yField w) (nField w))
  | 0xE#4 => tableE w
  | 0xF#4 => tableF w
  | _ => .error (.invalidOpcode w)

/-- Decodes the first instruction of a list of bytes and answers the bytes left over (R45). -/
def decodeBytes : List Byte → Except DecodeError (Instr × List Byte)
  | hi :: lo :: rest => (decodeWord (joinBytes hi lo)).map (fun i => (i, rest))
  | _ => .error .truncated

/-- The instruction word whose opcode-table bits are the low `nbits` bits of `w`, every bit above them 0. -/
def tableWord (nbits w : Nat) : Word := BitVec.ofNat 16 (w % 2 ^ nbits)

/-- What the decoder reads from an instruction whose bits are `w` as spec/opcode_table.json numbers them: its two bytes
are laid out big-endian (R32) and given to `decodeBytes`. -/
def decodeTableWord (nbits w : Nat) : Option Instr :=
  match decodeBytes [hiByte (tableWord nbits w), loByte (tableWord nbits w)] with
  | .ok (i, _) => some i
  | .error _ => none

/-! ## Encoding (R45, R49 to R53) -/

/-- The OP NNN reading of a word (R45). -/
def wordNNN (op : Nib) (nnn : Imm12) : Word := op ++ nnn
/-- The OP X NN reading of a word (R45). -/
def wordXNN (op x : Nib) (nn : Byte) : Word := op ++ x ++ nn
/-- The four-nibble reading of a word (R45). -/
def wordXYN (op x y n : Nib) : Word := op ++ x ++ y ++ n
/-- A word of group 0x0: top nibble, eight ignored bits, low nibble (R50, R54). -/
def wordMid (op : Nib) (mid : BitVec 8) (n : Nib) : Word := op ++ mid ++ n

/-- The word of an instruction, from the tables R49 to R53 and the table's `encoding` column. -/
def encode : Instr → Word
  | .cls dc => wordMid 0x0 dc 0x0
  | .ret dc => wordMid 0x0 dc 0xE
  | .jp nnn => wordNNN 0x1 nnn
  | .call nnn => wordNNN 0x2 nnn
  | .seImm x nn => wordXNN 0x3 x nn
  | .sneImm x nn => wordXNN 0x4 x nn
  | .seReg x y dc => wordXYN 0x5 x y dc
  | .ldImm x nn => wordXNN 0x6 x nn
  | .addImm x nn => wordXNN 0x7 x nn
  | .ldReg x y => wordXYN 0x8 x y 0x0
  | .orReg x y => wordXYN 0x8 x y 0x1
  | .andReg x y => wordXYN 0x8 x y 0x2
  | .xorReg x y => wordXYN 0x8 x y 0x3
  | .addReg x y => wordXYN 0x8 x y 0x4
  | .sub x y => wordXYN 0x8 x y 0x5
  | .shr x y => wordXYN 0x8 x y 0x6
  | .subn x y => wordXYN 0x8 x y 0x7
  | .shl x y => wordXYN 0x8 x y 0xE
  | .sneReg x y dc => wordXYN 0x9 x y dc
  | .ldI nnn => wordNNN 0xA nnn
  | .ldIV0 nnn => wordNNN 0xB nnn
  | .rnd x nn => wordXNN 0xC x nn
  | .drw x y n => wordXYN 0xD x y n
  | .skp x dc => wordXYN 0xE x dc 0xE
  | .sknp x dc => wordXYN 0xE x dc 0x1
  | .ldVxDt x => wordXNN 0xF x 0x07
  | .ldVxK x => wordXNN 0xF x 0x0A
  | .ldDtVx x => wordXNN 0xF x 0x15
  | .ldStVx x => wordXNN 0xF x 0x18
  | .addIVx x => wordXNN 0xF x 0x1E
  | .ldFVx x => wordXNN 0xF x 0x29
  | .ldBVx x => wordXNN 0xF x 0x33
  | .ldMemVx x => wordXNN 0xF x 0x55
  | .ldVxMem x => wordXNN 0xF x 0x65

/-- The two bytes of an instruction as they lie in memory, the first at the lower address (R32). -/
def encodeBytes (i : Instr) : List Byte := [hiByte (encode i), loByte (encode i)]

end Sys2Proof
end

