-- ==== Sys2Proof/Config.lean ====
section
/-!
DEFINITION. What an implementation fixes, and the one free value of the model.
The parameters of spec/00_scope.md R5 are a record, which the machine carries as `State.config`; their default values stand in
`Sys2Proof/Machine/Params.lean`.
-/

namespace Sys2Proof

/-- Size of the one flat address space, addresses 0 to 4095 (R5, R30). -/
abbrev Config.memSize : Nat := 4096

/-- Number of bytes of the font table: 16 glyphs of 5 bytes (R5, R21). -/
abbrev Config.fontBytes : Nat := 80

/-- The implementation parameters the spec names and leaves to the configuration (R5, D1 to D3). -/
structure Params where
  /-- PROGRAM_START: where `load` places a program and where PC starts. -/
  programStart : Nat
  /-- FONT_BASE: the address of glyph 0. -/
  fontBase : Nat
  /-- FONT_DATA: the 80 glyph bytes, glyph 0 first, top row first. -/
  fontData : List Byte
deriving DecidableEq, Repr

/-- FREE VALUE (log entry 6). The byte the random source presents to the RND that is the `k`-th one to draw, where the
host has presented no byte of its own. Spec R110, R127, U15: any of the 256 values, no law. It has no body, so no
proof can learn a value of it. -/
opaque Config.freeRand : Nat → Byte

end Sys2Proof
end

