-- ==== Sys2Proof/Machine/Params.lean ====
section
/-!
DEFINITION. The default parameter values of spec/00_scope.md R5, which `State.reset` is configured with.
PRESUMED (log entries 1, 2, 3): the spec takes the three from general knowledge of the customary instruction set (D1, D2,
D3) and lets no rule depend on them. The machine reads its parameters from `State.config`, so statements hold for all values.
-/

namespace Sys2Proof.Machine

/-- PROGRAM_START, default 0x200 (R5, D1). -/
def programStart : Nat := 0x200

/-- FONT_BASE, default 0x050 (R5, D2). -/
def fontBase : Nat := 0x050

/-- FONT_DATA, the default table of spec/10_state.md R21, one glyph a line, digit 0 first (D3). -/
def fontData : List Byte :=
  [0xF0, 0x90, 0x90, 0x90, 0xF0,
   0x20, 0x60, 0x20, 0x20, 0x70,
   0xF0, 0x10, 0xF0, 0x80, 0xF0,
   0xF0, 0x10, 0xF0, 0x10, 0xF0,
   0x90, 0x90, 0xF0, 0x10, 0x10,
   0xF0, 0x80, 0xF0, 0x10, 0xF0,
   0xF0, 0x80, 0xF0, 0x90, 0xF0,
   0xF0, 0x10, 0x20, 0x40, 0x40,
   0xF0, 0x90, 0xF0, 0x90, 0xF0,
   0xF0, 0x90, 0xF0, 0x10, 0xF0,
   0xF0, 0x90, 0xF0, 0x90, 0x90,
   0xE0, 0x90, 0xE0, 0x90, 0xE0,
   0xF0, 0x80, 0x80, 0x80, 0xF0,
   0xE0, 0x90, 0x90, 0x90, 0xE0,
   0xF0, 0x80, 0xF0, 0x80, 0xF0,
   0xF0, 0x80, 0xF0, 0x80, 0x80]

/-- The default configuration (R5). -/
def params : Params where
  programStart := programStart
  fontBase := fontBase
  fontData := fontData

end Sys2Proof.Machine
end

