-- ==== Sys2Proof/Machine/State.lean ====
section
/-!
DEFINITION. The architectural state of the CORE (spec/10_state.md R10 to R24), the reasons a step could stop, and the
state after reset (R28).
-/

namespace Sys2Proof.Machine

/-- The spec's four synchronous faults (spec/60_exceptions.md R130). Each is TAKEN by the CORE: the cycle ends in a next
state whose FAULT record names it (R135). They are no reason for the model to stop. -/
inductive FaultKind where
  /-- Decode: the word maps to no handler (R131). -/
  | invalidOpcode
  /-- Fetch, DRW, LD_B_VX, LD_MEM_VX, LD_VX_MEM: an address above 4095 (R132). -/
  | memoryFault
  /-- CALL with SP = 16, RET with SP = 0 (R133). -/
  | stackFault
  /-- SKP, SKNP with V[X] > 15 (R134). -/
  | keypadFault
deriving DecidableEq, Repr

/-- Why a step stops the machine: there is NO such reason. A cycle has exactly two outcomes, Ok and a fault that the CORE
takes and survives (spec/40_cycle.md R67: "There is no third outcome"), so this closed type has no constructor and nothing
raises it (log entry 8). -/
inductive Fault where
deriving DecidableEq, Repr

/-- Why a step has no meaning in this model. -/
inductive Refusal where
  /-- Raised by an arm of `exec` whose instruction has no meaning yet, under the table's mnemonic. Safe: the model stops
  where the hardware goes on. No arm raises it in this model. -/
  | notModelled (mnemonic : String)
deriving DecidableEq, Repr

/-- The FAULT record (R24): written by every faulting cycle, cleared only by reset. -/
structure FaultRecord where
  /-- 1 bit: set by every faulting cycle. -/
  valid : Bool
  /-- 3 bits: 1 InvalidOpcode, 2 MemoryFault, 3 StackFault, 4 KeypadFault, and 0 while `valid` is 0. -/
  kind : BitVec 3
  /-- PC at the start of the faulting cycle. -/
  pc : Word
  /-- The fetched word, 0 where none was fetched. -/
  instr : Word
  /-- The lowest out-of-range address, or V[X], or SP, or 0, by kind. -/
  addr : Word
deriving DecidableEq, Repr

/-- FAULT after reset (R28, D22). -/
def FaultRecord.clear : FaultRecord where
  valid := false
  kind := 0
  pc := 0
  instr := 0
  addr := 0

/-- The MODEL's view of the port `rand_in` (spec/46_host_operations.md R127); not state of the CORE (R26). Log entry 6. -/
structure RandPort where
  /-- Bytes the host has presented and no RND has consumed yet, the next one first. -/
  queue : List Byte
  /-- How many RND have drawn a byte so far. -/
  drawn : Nat
deriving DecidableEq, Repr

/-- Memory: the cells whose byte differs from the reset image, by rising address (`Memory.wf`). -/
abbrev Memory := List Host.Cell

/-- The display (R22): 32 rows, row 0 at the top, each of 64 cells, column 0 at the left. -/
abbrev Display := Vector (Vector Bool 64) 32

/-- The architectural state of the CORE: exactly R10's list. -/
structure CoreState where
  /-- V0..VF (R11). -/
  regs : Vector Byte 16
  /-- I (R18). -/
  i : Word
  /-- PC (R14): between cycles, the address of the next instruction. -/
  pc : Word
  /-- STACK[0..15] (R19). -/
  stack : Vector Word 16
  /-- SP, the number of occupied slots, 0..16 (R19). -/
  sp : Fin 17
  /-- DT, the delay timer (R20). -/
  dt : Byte
  /-- ST, the sound timer (R20). -/
  st : Byte
  /-- KEY[0..15] (R23): pressed is true. -/
  keys : Vector Bool 16
  /-- DISP (R22). -/
  disp : Display
  /-- MEM[0..4095] (R21, R30). -/
  mem : Memory
  /-- FAULT (R24). -/
  fault : FaultRecord
deriving DecidableEq, Repr

/-- The two ports of R120 that pass a value across the edge of a cycle; no state of the CORE. -/
structure Ports where
  /-- The model's own: the port `cycle_status`, the answer of the last cycle request (R120, R123; log entry 7). -/
  status : BitVec 3
  /-- The model's own: the port `rand_in` (R127; log entry 6). -/
  rand : RandPort
deriving DecidableEq, Repr

/-- What the host's interface steps (log entry 21): the state of the CORE, the ports a cycle reads and answers on, and the
configuration of the machine (R5), which nothing changes. -/
structure State extends CoreState, Ports where
  /-- PROGRAM_START, FONT_BASE, FONT_DATA: "the model takes it as a configuration field" (R5). -/
  config : Params
deriving DecidableEq, Repr

/-- A display with every cell unset. -/
def Display.blank : Display := Vector.replicate 32 (Vector.replicate 64 false)

/-- The state of the CORE after reset, with the parameters `p` (R28, R150). Memory lists nothing: an unlisted address reads
as the reset image (`Memory.initial`). -/
def CoreState.reset (p : Params) : CoreState where
  regs := Vector.replicate 16 0
  i := 0
  pc := BitVec.ofNat 16 p.programStart
  stack := Vector.replicate 16 0
  sp := 0
  dt := 0
  st := 0
  keys := Vector.replicate 16 false
  disp := Display.blank
  mem := []
  fault := FaultRecord.clear

/-- The machine configured with `p`, after reset; the ports' values are the model's own (log entries 6, 7). -/
def State.resetWith (p : Params) : State where
  toCoreState := CoreState.reset p
  status := 0
  rand := { queue := [], drawn := 0 }
  config := p

/-- The machine after reset, with the default parameters (log entries 1, 2, 3). -/
def State.reset : State := State.resetWith params

end Sys2Proof.Machine
end

