-- ==== Sys2Proof/Machine/Ops.lean ====
section
/-!
DEFINITION. The named operations over memory, registers, stack, keys and the random port; taking a fault; completing a
cycle; fetching. Every instruction's meaning is written over these (spec/10_state.md, 20_memory.md, 40_cycle.md,
60_exceptions.md).
-/

namespace Sys2Proof.Machine

/-- What a meaning and a step answer. -/
abbrev Result := Host.Outcome State Fault Refusal

/-! ## Memory (spec/20_memory.md) -/

/-- The reset image, and so what an unlisted address reads as: the font table at FONT_BASE, 0 elsewhere (R21, R28; log
entry 9). -/
def Memory.initial (p : Params) (a : Nat) : Byte :=
  if p.fontBase ≤ a ∧ a < p.fontBase + Config.fontBytes then p.fontData.getD (a - p.fontBase) 0 else 0

/-- The byte at an address (R37). -/
def Memory.read (p : Params) : Memory → Nat → Byte
  | [], a => Memory.initial p a
  | (c, b) :: rest, a => if a = c then b else Memory.read p rest a

/-- Memory without an entry for `a`. -/
def Memory.erase : Memory → Nat → Memory
  | [], _ => []
  | (c, b) :: rest, a => if a = c then Memory.erase rest a else (c, b) :: Memory.erase rest a

/-- Lists the cell `(a, b)` before the first entry with a greater address. -/
def Memory.insert : Memory → Nat → Byte → Memory
  | [], a, b => [(a, b)]
  | (c, x) :: rest, a, b => if a < c then (a, b) :: (c, x) :: rest else (c, x) :: Memory.insert rest a b

/-- Stores one byte (R37). Writing what an unlisted address reads as removes the entry, so equal memories are equal
lists. Callers check the range first (R36). -/
def Memory.write (p : Params) (m : Memory) (a : Nat) (b : Byte) : Memory :=
  if b = Memory.initial p a then Memory.erase m a else Memory.insert (Memory.erase m a) a b

/-- Stores bytes at ascending addresses from `base` (R32, R34). -/
def Memory.writeBytes (p : Params) : Memory → Nat → List Byte → Memory
  | m, _, [] => m
  | m, base, b :: bs => Memory.writeBytes p (Memory.write p m base b) (base + 1) bs

/-- The entries lie at rising addresses, the first not below `lo`, all in the address space, none redundant. -/
def Memory.wfFrom (p : Params) : Nat → Memory → Bool
  | _, [] => true
  | lo, (a, b) :: rest =>
    decide (lo ≤ a ∧ a < Config.memSize ∧ b ≠ Memory.initial p a) && Memory.wfFrom p (a + 1) rest

/-- The canonical form of memory. -/
def Memory.wf (p : Params) (m : Memory) : Bool := Memory.wfFrom p 0 m

/-- MEM[a], `MemRead(a, 1)` (R7, R37). -/
def State.byte (s : State) (a : Nat) : Byte := Memory.read s.config s.mem a

/-! ## Registers (spec/10_state.md R11, R17, R18) -/

/-- V[r]. -/
def State.v (s : State) (r : Nib) : Byte := s.regs[r.toNat]'(by have := r.isLt; omega)

/-- `V[r] <- b`. -/
def State.setV (s : State) (r : Nib) (b : Byte) : State :=
  { s with regs := s.regs.set r.toNat b (by have := r.isLt; omega) }

/-- VF, the flag register (R13). -/
def State.vf (s : State) : Byte := s.v 0xF

/-- `VF <- b` (R13). -/
def State.setVF (s : State) (b : Byte) : State := s.setV 0xF b

/-- `I <- w`. -/
def State.setI (s : State) (w : Word) : State := { s with i := w }

/-- `PC <- w`; no target is checked here (R70). -/
def State.setPc (s : State) (w : Word) : State := { s with pc := w }

/-- `DT <- b`. -/
def State.setDt (s : State) (b : Byte) : State := { s with dt := b }

/-- `ST <- b`. -/
def State.setSt (s : State) (b : Byte) : State := { s with st := b }

/-- `DISP <- d`. -/
def State.setDisp (s : State) (d : Display) : State := { s with disp := d }

/-- V0 .. V[n-1], in this order, as a list of bytes (R12, R101). -/
def State.regBlock (s : State) (n : Nat) : List Byte := (List.range n).map (fun k => s.v (BitVec.ofNat 4 k))

/-- `for k in 0 .. n-1: V[k] <- MemRead(base + k, 1)` (R102). -/
def State.loadRegs (s : State) (base : Nat) : Nat → State
  | 0 => s
  | k + 1 => (s.loadRegs base k).setV (BitVec.ofNat 4 k) (s.byte (base + k))

/-- Stores bytes at ascending addresses (R34). -/
def State.storeBytes (s : State) (base : Nat) (bytes : List Byte) : State :=
  { s with mem := Memory.writeBytes s.config s.mem base bytes }

/-! ## Call stack (R19) -/

/-- A push writes STACK[SP] and increments SP; none at SP = 16. -/
def State.push? (s : State) (w : Word) : Option State :=
  if h : s.sp.val < 16 then
    some { s with stack := s.stack.set s.sp.val w h, sp := ⟨s.sp.val + 1, by omega⟩ }
  else none

/-- A pop decrements SP and reads STACK[SP]; the slot keeps its value; none at SP = 0. -/
def State.pop? (s : State) : Option (Word × State) :=
  if h : s.sp.val = 0 then none
  else some (s.stack[s.sp.val - 1]'(by omega), { s with sp := ⟨s.sp.val - 1, by omega⟩ })

/-! ## Keys (R23) -/

/-- KEY[k]. -/
def State.key (s : State) (k : Nib) : Bool := s.keys[k.toNat]'(by have := k.isLt; omega)

/-- `KEY[k] <- b`; only the host does this (R124). -/
def State.setKey (s : State) (k : Nib) (b : Bool) : State :=
  { s with keys := s.keys.set k.toNat b (by have := k.isLt; omega) }

/-- The least pressed key code, scanning 0 to 15 in ascending order (R114). -/
def State.firstKey (s : State) : Option Nib :=
  ((List.range 16).map (BitVec.ofNat 4)).find? s.key

/-! ## Display (spec/10_state.md R22, spec/44_display.md) -/

/-- DISP[x][y]. -/
def Display.cell (d : Display) (x : Fin 64) (y : Fin 32) : Bool := d[y.val][x.val]

/-- `DISP[x][y] <- DISP[x][y] ^ 1`. -/
def Display.flip (d : Display) (x : Fin 64) (y : Fin 32) : Display :=
  d.set y.val (d[y.val].set x.val (!d[y.val][x.val]))

/-- A display being drawn on, and whether a set cell has been hit so far. -/
structure Canvas where
  disp : Display
  hit : Bool
deriving DecidableEq, Repr

/-- The draw of one sprite 1-bit at a target cell: the collision test, then the XOR (R107). -/
def Canvas.plot (c : Canvas) (x : Fin 64) (y : Fin 32) : Canvas where
  disp := c.disp.flip x y
  hit := c.hit || c.disp.cell x y

/-- One sprite row: bit `7 - col` of the byte is column `col`; each target wraps by itself (R105, R107). -/
def Canvas.drawRow (c : Canvas) (b : Byte) (ox ty : Nat) : Canvas :=
  (List.range 8).foldl
    (fun c col => if b.getLsbD (7 - col) then c.plot (Fin.ofNat 64 (ox + col)) (Fin.ofNat 32 ty) else c) c

/-- The `n` sprite rows `rows 0`, `rows 1`, ..., top row first (R107). -/
def Canvas.drawSprite (c : Canvas) (rows : Nat → Byte) (ox oy n : Nat) : Canvas :=
  (List.range n).foldl (fun c row => c.drawRow (rows row) ox (oy + row)) c

/-! ## The random port (spec/46_host_operations.md R127; log entry 6) -/

/-- The byte an RND executed now draws: the host's next one, else the free value. -/
def State.randByte (s : State) : Byte :=
  match s.rand.queue with
  | b :: _ => b
  | [] => Config.freeRand s.rand.drawn

/-- The port after one byte has been drawn. -/
def State.consumeRand (s : State) : State :=
  { s with rand := { queue := s.rand.queue.tail, drawn := s.rand.drawn + 1 } }

/-! ## The phases of a cycle (spec/40_cycle.md R60) -/

/-- Phase 1, fetch: the word at PC and PC + 1, none when PC > 4094 (R61). -/
def State.fetch (s : State) : Option Word :=
  if s.pc.toNat ≤ 4094 then
    some (joinBytes (s.byte s.pc.toNat) (s.byte (s.pc.toNat + 1)))
  else none

/-- Phase 2, advance: `PC <- (PC0 + 2) mod 65536`, which is npc (R62). -/
def State.advance (s : State) : State := s.setPc (s.pc + 2)

/-- One timer's tick: down by one, stopping at 0 (R66). -/
def tick (b : Byte) : Byte := if b = 0 then 0 else b - 1

/-- Phase 4, timers: both tick once (R66). -/
def State.tickTimers (s : State) : State := { s with dt := tick s.dt, st := tick s.st }

/-- A completed cycle: from the state the handler left, the timers tick and the request is answered Ok (R66, R67,
R123). -/
def complete (s : State) : Result := .next { s.tickTimers with status := 0 }

/-- The code of a fault, the `kind` of FAULT and the non-zero values of `cycle_status` (R130). -/
def FaultKind.code : FaultKind → BitVec 3
  | .invalidOpcode => 1
  | .memoryFault => 2
  | .stackFault => 3
  | .keypadFault => 4

/-- FAULT as a cycle that faults at the start state `s` writes it (R24). -/
def State.faultRecord (s : State) (k : FaultKind) (word addr : Word) : FaultRecord where
  valid := true
  kind := k.code
  pc := s.pc
  instr := word
  addr := addr

/-- TAKING A FAULT, the one entry for all four (R135, R65): from the state at the START of the cycle nothing changes but
FAULT; PC stays, no timer ticks, no random byte is drawn; the kind goes out on `cycle_status`. There is no return from a
fault: the next cycle request starts from this state (R138). -/
def takeFault (s : State) (k : FaultKind) (word addr : Word) : Result :=
  .next { s with fault := s.faultRecord k word addr, status := k.code }

/-- The lowest out-of-range address of an ascending access from `base`, `max(base, 4096)` (R36). -/
def lowestOutOfRange (base : Word) : Word := if 4096 ≤ base.toNat then base else 4096

/-- The MemoryFault of a fetch: no word was fetched, so FAULT.instr is 0 (R61, R24). -/
def fetchFault (s : State) : Result := takeFault s .memoryFault 0 (lowestOutOfRange s.pc)

/-- The InvalidOpcode of a fetched word (R63, R131). -/
def invalidOpcodeFault (s : State) (w : Word) : Result := takeFault s .invalidOpcode w 0

/-- Stores an instruction word where the next fetch reads it; with PC > 4094 there is no such place and nothing changes
(log entry 10). -/
def State.placeWord (s : State) (w : Word) : State :=
  if s.pc.toNat ≤ 4094 then s.storeBytes s.pc.toNat [hiByte w, loByte w] else s

end Sys2Proof.Machine
end

