-- ==== Sys2Proof/Machine/Operands.lean ====
section
/-!
DEFINITION. The operand forms (spec/30_encoding.md R47, spec/43_index_memory.md R95): immediates zero-extended, register
operands, and memory addressed through I with an ascending offset; and the range check of an access (R36).
-/

namespace Sys2Proof.Machine

/-- `zext_16` of the address immediate NNN (R47). -/
def zextImm (nnn : Imm12) : Word := nnn.setWidth 16

/-- `zext_16` of a byte (R6). -/
def zextByte (b : Byte) : Word := b.setWidth 16

/-- `zext_16(SP)` (R24). -/
def zextSp (sp : Fin 17) : Word := BitVec.ofNat 16 sp.val

/-- The number of bytes a register block V0..VX moves (R34). -/
def blockLength (x : Nib) : Nat := x.toNat + 1

/-- Whether the `n` bytes from `base`, addresses formed in the integers, all exist; an access of no byte always does
(R35, R36). -/
def inMemory (base : Word) (n : Nat) : Bool :=
  decide (n = 0 ∨ base.toNat + n ≤ Config.memSize)

/-- The MemoryFault of an access through I (R36, R132). -/
def indexFault (s : State) (word : Word) : Result := takeFault s .memoryFault word (lowestOutOfRange s.i)

/-- The hundreds, tens and units digits of a byte (R100). -/
def bcdDigits (b : Byte) : List Byte :=
  [BitVec.ofNat 8 (b.toNat / 100), BitVec.ofNat 8 (b.toNat / 10 % 10), BitVec.ofNat 8 (b.toNat % 10)]

/-- The address of a glyph, `(FONT_BASE + 5 * v) mod 65536`; `v` is used whole (R99). -/
def glyphAddress (p : Params) (v : Byte) : Word := BitVec.ofNat 16 (p.fontBase + 5 * v.toNat)

/-- A taken skip adds 2 to npc (R70). -/
def State.skipIf (s : State) (c : Bool) : State := if c then s.setPc (s.pc + 2) else s

/-- The key a register's value names, none above 15: the whole register is the code (R111, R112). -/
def keyCode (b : Byte) : Option Nib := if b.toNat ≤ 15 then some (b.setWidth 4) else none

end Sys2Proof.Machine
end

