-- ==== Sys2Proof/Machine/Flags.lean ====
section
/-!
DEFINITION. The flag computations (spec/10_state.md R13, spec/42_alu.md R87 to R93) and the order in which a
flag-writing instruction writes: the flag first, the result second, the result computed with the new flag in place (R80).
-/

namespace Sys2Proof.Machine

/-- A flag as VF holds it, 1 or 0. -/
def flagByte (c : Bool) : Byte := if c then 1 else 0

/-- The carry out of a sum, its ninth bit (R87, R93). -/
def carryFlag (a b : Byte) : Byte := flagByte (a.toNat + b.toNat > 255)

/-- The flag of SUB and SUBN: minuend strictly greater than subtrahend (R88, R90). -/
def greaterFlag (a b : Byte) : Byte := flagByte (a.toNat > b.toNat)

/-- The flag of SHR and of SHL: bit 0 of the source, in both directions (R89, R91; C2). -/
def lowBitFlag (b : Byte) : Byte := b &&& 1

/-- The flag of a draw (R107). -/
def collisionFlag (hit : Bool) : Byte := flagByte hit

/-- `VF <- flag; V[X] <- result`, the result read from the state that holds the new flag (R80, R92). -/
def State.flagThenResult (s : State) (flag : Byte) (x : Nib) (result : State → Byte) : State :=
  (s.setVF flag).setV x (result (s.setVF flag))

end Sys2Proof.Machine
end

