-- ==== Sys2Proof/Machine/Alu.lean ====
section
/-!
DEFINITION. Register load, arithmetic, logic and shift (spec/42_alu.md R80 to R93). None of these can fault.
-/

namespace Sys2Proof.Machine

/-- LD_IMM: `V[X] <- NN` (R81). -/
def execLdImm (x : Nib) (nn : Byte) (s : State) : Result := complete (s.advance.setV x nn)

/-- ADD_IMM: `V[X] <- (V[X] + NN) mod 256`, no flag (R82). -/
def execAddImm (x : Nib) (nn : Byte) (s : State) : Result := complete (s.advance.setV x (s.v x + nn))

/-- LD_REG: `V[X] <- V[Y]` (R83, C5). -/
def execLdReg (x y : Nib) (s : State) : Result := complete (s.advance.setV x (s.v y))

/-- OR: `V[X] <- V[X] | V[Y]`, VF untouched (R84). -/
def execOr (x y : Nib) (s : State) : Result := complete (s.advance.setV x (s.v x ||| s.v y))

/-- AND: `V[X] <- V[X] & V[Y]`, VF untouched (R85). -/
def execAnd (x y : Nib) (s : State) : Result := complete (s.advance.setV x (s.v x &&& s.v y))

/-- XOR: `V[X] <- V[X] ^ V[Y]`, VF untouched (R86). -/
def execXor (x y : Nib) (s : State) : Result := complete (s.advance.setV x (s.v x ^^^ s.v y))

/-- ADD_REG: the sum is computed from both operands before any write; VF gets its carry, then V[X] the sum mod 256
(R87). -/
def execAddReg (x y : Nib) (s : State) : Result :=
  complete (s.advance.flagThenResult (carryFlag (s.v x) (s.v y)) x (fun _ => s.v x + s.v y))

/-- SUB: `VF <- (V[X] > V[Y])`, then `V[X] <- V[X] - V[Y]`, read after the flag write (R88). -/
def execSub (x y : Nib) (s : State) : Result :=
  complete (s.advance.flagThenResult (greaterFlag (s.v x) (s.v y)) x (fun t => t.v x - t.v y))

/-- SHR: `VF <- V[Y] & 1`, then `V[X] <- V[Y] >> 1`, read after the flag write (R89). -/
def execShr (x y : Nib) (s : State) : Result :=
  complete (s.advance.flagThenResult (lowBitFlag (s.v y)) x (fun t => t.v y >>> 1))

/-- SUBN: `VF <- (V[Y] > V[X])`, then `V[X] <- V[Y] - V[X]`, read after the flag write (R90). -/
def execSubn (x y : Nib) (s : State) : Result :=
  complete (s.advance.flagThenResult (greaterFlag (s.v y) (s.v x)) x (fun t => t.v y - t.v x))

/-- SHL: `VF <- V[Y] & 1` (bit 0, not the bit shifted out: C2), then `V[X] <- (V[Y] << 1) mod 256`, read after the flag
write (R91). -/
def execShl (x y : Nib) (s : State) : Result :=
  complete (s.advance.flagThenResult (lowBitFlag (s.v y)) x (fun t => t.v y <<< 1))

end Sys2Proof.Machine
end

