-- ==== Sys2Proof/Machine/ControlFlow.lean ====
section
/-!
DEFINITION. Control transfer: RET, JP, CALL and the register skips (spec/41_control_flow.md R70 to R77).
Every meaning takes the state at the START of its cycle (PC = PC0) and gives the cycle's end: `s.advance` is the state its
handler sees (PC = npc, R62), `complete` ends the cycle (timers, R66), `takeFault` abandons it (R65).
-/

namespace Sys2Proof.Machine

/-- RET: pop the stack into PC (R71); StackFault, addr = SP, on an empty stack (R133). -/
def execRet (dc : BitVec 8) (s : State) : Result :=
  match s.advance.pop? with
  | none => takeFault s .stackFault (encode (.ret dc)) (zextSp s.sp)
  | some (target, t) => complete (t.setPc target)

/-- JP: `PC <- zext_16(NNN)` (R72). -/
def execJp (nnn : Imm12) (s : State) : Result := complete (s.advance.setPc (zextImm nnn))

/-- CALL: push npc, then `PC <- zext_16(NNN)` (R73); StackFault, addr = SP, on a full stack (R133). -/
def execCall (nnn : Imm12) (s : State) : Result :=
  match s.advance.push? s.advance.pc with
  | none => takeFault s .stackFault (encode (.call nnn)) (zextSp s.sp)
  | some t => complete (t.setPc (zextImm nnn))

/-- SE_IMM: skip if `V[X] = NN` (R74). -/
def execSeImm (x : Nib) (nn : Byte) (s : State) : Result := complete (s.advance.skipIf (s.v x == nn))

/-- SNE_IMM: skip if `V[X] != NN` (R75). -/
def execSneImm (x : Nib) (nn : Byte) (s : State) : Result := complete (s.advance.skipIf (s.v x != nn))

/-- SE_REG: skip if `V[X] = V[Y]` (R76); the low nibble is ignored (R54). -/
def execSeReg (x y : Nib) (s : State) : Result := complete (s.advance.skipIf (s.v x == s.v y))

/-- SNE_REG: skip if `V[X] != V[Y]` (R77); the low nibble is ignored (R54). -/
def execSneReg (x y : Nib) (s : State) : Result := complete (s.advance.skipIf (s.v x != s.v y))

end Sys2Proof.Machine
end

