-- ==== Sys2Proof/Machine/Display.lean ====
section
/-!
DEFINITION. Display instructions: CLS and DRW (spec/44_display.md R105 to R108).
-/

namespace Sys2Proof.Machine

/-- CLS: every display cell unset; VF not written (R106). -/
def execCls (_dc : BitVec 8) (s : State) : Result := complete (s.advance.setDisp Display.blank)

/-- The canvas a draw of height `n` at origin (V[X], V[Y]) leaves: the origin is read once, before VF is written, and the
sprite bytes from I upward (R107, D16). -/
def State.drawn (s : State) (x y n : Nib) : Canvas :=
  Canvas.drawSprite { disp := s.disp, hit := false } (fun row => s.byte (s.i.toNat + row)) (s.v x).toNat (s.v y).toNat
    n.toNat

/-- DRW: XOR an 8 by N sprite onto the display, every pixel wrapping by itself; VF is 1 iff a targeted cell was set
(R107). -/
def execDrw (x y n : Nib) (s : State) : Result :=
  if inMemory s.i n.toNat then
    complete ((s.advance.setDisp (s.drawn x y n).disp).setVF (collisionFlag (s.drawn x y n).hit))
  else indexFault s (encode (.drw x y n))

end Sys2Proof.Machine
end

