-- ==== Sys2Proof/Machine/IndexMemory.lean ====
section
/-!
DEFINITION. Index-register and memory instructions (spec/43_index_memory.md R95 to R102). The whole range of an access is
checked before any byte moves; a fault has no partial effect (spec/20_memory.md R36).
-/

namespace Sys2Proof.Machine

/-- LD_I: `I <- zext_16(NNN)` (R96). -/
def execLdI (nnn : Imm12) (s : State) : Result := complete (s.advance.setI (zextImm nnn))

/-- LD_I_V0: `I <- zext_16(NNN) + zext_16(V[0])`; no jump (R97). -/
def execLdIV0 (nnn : Imm12) (s : State) : Result := complete (s.advance.setI (zextImm nnn + zextByte (s.v 0)))

/-- ADD_I_VX: `I <- (I + zext_16(V[X])) mod 65536`, no flag (R98). -/
def execAddIVx (x : Nib) (s : State) : Result := complete (s.advance.setI (s.i + zextByte (s.v x)))

/-- LD_F_VX: `I <- (FONT_BASE + 5 * V[X]) mod 65536` (R99). -/
def execLdFVx (x : Nib) (s : State) : Result := complete (s.advance.setI (glyphAddress s.config (s.v x)))

/-- LD_B_VX: hundreds, tens and units of V[X] at I, I+1, I+2 (R100). -/
def execLdBVx (x : Nib) (s : State) : Result :=
  if inMemory s.i 3 then complete (s.advance.storeBytes s.i.toNat (bcdDigits (s.v x)))
  else indexFault s (encode (.ldBVx x))

/-- LD_MEM_VX: V0..VX to memory from I, then `I <- (I + X + 1) mod 65536` (R101). -/
def execLdMemVx (x : Nib) (s : State) : Result :=
  if inMemory s.i (blockLength x) then
    complete ((s.advance.storeBytes s.i.toNat (s.regBlock (blockLength x))).setI
      (s.i + BitVec.ofNat 16 (blockLength x)))
  else indexFault s (encode (.ldMemVx x))

/-- LD_VX_MEM: memory from I to V0..VX, then `I <- (I + X + 1) mod 65536` (R102). -/
def execLdVxMem (x : Nib) (s : State) : Result :=
  if inMemory s.i (blockLength x) then
    complete ((s.advance.loadRegs s.i.toNat (blockLength x)).setI (s.i + BitVec.ofNat 16 (blockLength x)))
  else indexFault s (encode (.ldVxMem x))

end Sys2Proof.Machine
end

