-- ==== Sys2Proof/Machine/KeysTimersRandom.lean ====
section
/-!
DEFINITION. Random, key and timer instructions (spec/45_keys_timers_random.md R110 to R116).
-/

namespace Sys2Proof.Machine

/-- RND: `V[X] <- rand & NN`, exactly one byte consumed (R110). -/
def execRnd (x : Nib) (nn : Byte) (s : State) : Result :=
  complete (s.advance.consumeRand.setV x (s.randByte &&& nn))

/-- SKP: skip if `KEY[V[X]] = 1` (R111); KeypadFault, addr = V[X], when V[X] > 15 (R134). The third nibble is ignored
(R54). -/
def execSkp (x : Nib) (dc : BitVec 4) (s : State) : Result :=
  match keyCode (s.v x) with
  | none => takeFault s .keypadFault (encode (.skp x dc)) (zextByte (s.v x))
  | some k => complete (s.advance.skipIf (s.key k))

/-- SKNP: skip if `KEY[V[X]] = 0` (R112); KeypadFault as SKP (R134). -/
def execSknp (x : Nib) (dc : BitVec 4) (s : State) : Result :=
  match keyCode (s.v x) with
  | none => takeFault s .keypadFault (encode (.sknp x dc)) (zextByte (s.v x))
  | some k => complete (s.advance.skipIf (!s.key k))

/-- LD_VX_DT: `V[X] <- DT`, DT before this cycle's tick (R113). -/
def execLdVxDt (x : Nib) (s : State) : Result := complete (s.advance.setV x s.dt)

/-- LD_VX_K: `V[X] <-` the least pressed key; none pressed: `PC <- npc - 2`, the same word again next cycle (R114). -/
def execLdVxK (x : Nib) (s : State) : Result :=
  match s.firstKey with
  | some k => complete (s.advance.setV x (k.setWidth 8))
  | none => complete (s.advance.setPc (s.advance.pc - 2))

/-- LD_DT_VX: `DT <- V[X]`; the same cycle's tick then counts it down (R115). -/
def execLdDtVx (x : Nib) (s : State) : Result := complete (s.advance.setDt (s.v x))

/-- LD_ST_VX: `ST <- V[X]`; the same cycle's tick then counts it down (R116). -/
def execLdStVx (x : Nib) (s : State) : Result := complete (s.advance.setSt (s.v x))

end Sys2Proof.Machine
end

