-- ==== Sys2Proof/Machine/Step.lean ====
section
/-!
DEFINITION. One step is one cycle (spec/40_cycle.md R60): fetch, decode, and the rest of the cycle of the decoded
instruction; a fetch or a decode that fails takes its fault first (R61, R63, R136).
-/

namespace Sys2Proof.Machine

/-- One cycle. -/
def step (s : State) : Host.Outcome State Fault Refusal :=
  match s.fetch with
  | none => fetchFault s
  | some w =>
    match decodeWord w with
    | .error _ => invalidOpcodeFault s w
    | .ok i => exec i s

/-- `s` with the instruction of the opcode table's bits `w` placed where `step` fetches next; it stands for the host's
load of a program (spec/70_reset_and_hazards.md R152; log entry 10). -/
def State.withFetchWord (s : State) (nbits w : Nat) : State := s.placeWord (tableWord nbits w)

end Sys2Proof.Machine
end

