-- ==== Sys2Proof/Machine/HostOps.lean ====
section
/-!
DEFINITION. The host's moves (spec/46_host_operations.md R120 to R129). They are no instructions; each is atomic and falls
between cycles (spec/20_memory.md R39, R43).
-/

namespace Sys2Proof.Machine

/-- One move of the host. A key code is four bits wide, so an out-of-range code cannot be said (R124, D20). -/
inductive HostOp where
  /-- Reset, the document's Construction (R121). -/
  | reset
  /-- Load a byte sequence at PROGRAM_START (R122). -/
  | load (bytes : List Byte)
  /-- Request one cycle (R123). -/
  | cycle
  /-- Press a key (R124). -/
  | pressKey (code : Nib)
  /-- Release a key (R124). -/
  | releaseKey (code : Nib)
  /-- Choose the bytes the next RNDs draw (R127, R129: "choose every rand byte"). -/
  | presentRand (bytes : List Byte)
deriving DecidableEq, Repr

/-- Reset: every piece of state at its value of R28; the random source is not touched (R121), and the configuration stays
(R5). -/
def State.hostReset (s : State) : State := { State.resetWith s.config with rand := s.rand }

/-- Whether a load of `len` bytes fits (R122). -/
def loadFits (p : Params) (len : Nat) : Bool := len ≤ Config.memSize - p.programStart

/-- Load, with the answer `load_ok`: memory from PROGRAM_START upward, or nothing at all when it does not fit (R122). -/
def State.load (s : State) (bytes : List Byte) : Bool × State :=
  if loadFits s.config bytes.length then (true, s.storeBytes s.config.programStart bytes) else (false, s)

/-- One requested cycle; the answer is `status` of the state it leaves (R123). A cycle never stops (R67), so the last arm
is never taken. -/
def State.cycle (s : State) : State :=
  match step s with
  | .next t => t
  | _ => s

/-- Adds bytes behind those the host has presented before (R127). -/
def State.presentRand (s : State) (bytes : List Byte) : State :=
  { s with rand := { s.rand with queue := s.rand.queue ++ bytes } }

/-- The state after one move of the host. -/
def State.apply (s : State) : HostOp → State
  | .reset => s.hostReset
  | .load bytes => (s.load bytes).2
  | .cycle => s.cycle
  | .pressKey code => s.setKey code true
  | .releaseKey code => s.setKey code false
  | .presentRand bytes => s.presentRand bytes

/-- The state after a sequence of moves, in order (R129, D30). -/
def State.applyAll (s : State) (ops : List HostOp) : State := ops.foldl State.apply s

/-! ## What the host may read (R125, R126, R128) -/

/-- `snapshot_display()`: a copy of the grid at the moment of the call (R125). -/
def State.snapshot (s : State) : Display := s.disp

/-- Bit `k` of `disp_out`: cell (x, y) is bit `64 * y + x` (R125, D26). -/
def State.dispOut (s : State) (k : Fin 2048) : Bool :=
  s.disp.cell (Fin.ofNat 64 (k.val % 64)) (Fin.ofNat 32 (k.val / 64))

/-- `dt_out` and `st_out` (R126). -/
def State.timersOut (s : State) : Byte × Byte := (s.dt, s.st)

/-- `fault_out` (R128). -/
def State.faultOut (s : State) : FaultRecord := s.fault

/-- `cycle_status`: 0 Ok, else the fault's kind (R120, R123). -/
def State.cycleStatus (s : State) : BitVec 3 := s.status

end Sys2Proof.Machine
end

