-- ==== Sys2Proof/Machine/Cycle.lean ====
section
/-!
DEFINITION. The cycle as spec/40_cycle.md R60 writes it, a function of the CORE's state at its start and of the byte the
random source presents: `cycle : State x rand -> Ok State' | Fault (kind, info) State''`, on R10's state and R5's parameters.
-/

namespace Sys2Proof.Machine

/-- The machine about to run one cycle: the CORE's state `c`, the parameters `p`, and `rand` on the random port (R127: "an
argument of the step"). -/
def CoreState.withRand (c : CoreState) (p : Params) (rand : Byte) : State where
  toCoreState := c
  status := 0
  rand := { queue := [rand], drawn := 0 }
  config := p

/-- R60's function: the status, 0 Ok or a fault's code (R120), and the CORE's next state, whose FAULT holds the fault's
info. -/
def CoreState.cycle (p : Params) (c : CoreState) (rand : Byte) : BitVec 3 × CoreState :=
  ((c.withRand p rand).cycle.status, (c.withRand p rand).cycle.toCoreState)

end Sys2Proof.Machine
end

