-- ==== Sys2Proof/WellFormed.lean ====
section
/-!
DEFINITION. The checks on terms that their types do not already make.
An operand of `Instr` cannot be out of range (its type has the field's width), so every term of `Instr` is a word the
CORE's decoder accepts. What is left to check: that an instruction is the CANONICAL one an assembler emits
(spec/30_encoding.md R54), and that a configuration meets the constraints of spec/00_scope.md R5.
-/

namespace Sys2Proof

/-- The word of `i` is the canonical word of its row: its don't-care bits are those of R54's canonical column. The CORE
executes every other word of the row identically; this check is an assembler's, no condition of any meaning. -/
def Instr.canonical : Instr → Bool
  | .cls dc => dc == 0x0E#8
  | .ret dc => dc == 0x0E#8
  | .seReg _ _ dc => dc == 0x0#4
  | .sneReg _ _ dc => dc == 0x0#4
  | .skp _ dc => dc == 0x9#4
  | .sknp _ dc => dc == 0xA#4
  | .jp _ | .call _ | .seImm _ _ | .sneImm _ _ | .ldImm _ _ | .addImm _ _ | .ldReg _ _ | .orReg _ _
  | .andReg _ _ | .xorReg _ _ | .addReg _ _ | .sub _ _ | .shr _ _ | .subn _ _ | .shl _ _ | .ldI _ | .ldIV0 _
  | .rnd _ _ | .drw _ _ _ | .ldVxDt _ | .ldVxK _ | .ldDtVx _ | .ldStVx _ | .addIVx _ | .ldFVx _ | .ldBVx _
  | .ldMemVx _ | .ldVxMem _ => true

/-- Constraint of R5: a first instruction fits, `PROGRAM_START + 2 <= MEM_SIZE`. -/
def Params.startFits (p : Params) : Bool := p.programStart + 2 ≤ Config.memSize

/-- Constraint of R5: the font table lies in memory, `FONT_BASE + 80 <= MEM_SIZE`. -/
def Params.fontFits (p : Params) : Bool := p.fontBase + Config.fontBytes ≤ Config.memSize

/-- FONT_DATA is 80 bytes (R5, R21). -/
def Params.fontSized (p : Params) : Bool := p.fontData.length == Config.fontBytes

/-- A configuration the spec allows. -/
def Params.wellFormed (p : Params) : Bool := p.startFits && p.fontFits && p.fontSized

end Sys2Proof
end

