-- ==== Sys2Proof/Safety.lean ====
section
/-!
DEFINITION. The terms that claims use: the parts of the machine and what a completed cycle leaves alone, the spec's
tables of who writes what, of PC and of the faults, the invariants, and a parked program.
Everything here is written from the spec's tables, not from the meanings: a claim holds the two against each other.
-/

namespace Sys2Proof.Machine

/-! ## What a completed cycle leaves alone -/

/-- The parts of the machine an instruction can write, besides KEY and FAULT, which no completed cycle writes. -/
inductive Part where
  | regs | index | pc | stack | display | memory | timers | rand
deriving DecidableEq, Repr

/-- From `s` to `t`, the part is as a completed cycle leaves it whose instruction does not write it: PC moves on by 2 (spec
R16), each timer is one down and not below 0 (R66), all else is unchanged; memory byte by byte. -/
def KeptByCycle (s t : State) : Part → Prop
  | .regs => ∀ r, t.v r = s.v r
  | .index => t.i = s.i
  | .pc => t.pc = s.pc + 2
  | .stack => t.stack = s.stack ∧ t.sp = s.sp
  | .display => t.disp = s.disp
  | .memory => ∀ a, t.byte a = s.byte a
  | .timers => t.dt.toNat = s.dt.toNat - 1 ∧ t.st.toNat = s.st.toNat - 1
  | .rand => t.rand = s.rand

/-- `t` ends a completed cycle that began in `s` and whose instruction wrote no part outside `written`: answered Ok, KEY,
FAULT and the configuration untouched, every other part as `KeptByCycle` says. -/
def CompletesWriting (written : List Part) (s t : State) : Prop :=
  t.status = 0 ∧ t.keys = s.keys ∧ t.fault = s.fault ∧ t.config = s.config ∧ ∀ p, p ∉ written → KeptByCycle s t p

/-- The state a cycle leaves that begins in `s` and faults (R65, R135): `s`, but for FAULT and the answer of the request.
The kinds are R130's numbers. -/
def faulted (s : State) (kind : BitVec 3) (instr addr : Word) : State :=
  { s with fault := { valid := true, kind := kind, pc := s.pc, instr := instr, addr := addr }, status := kind }

/-! ## The spec's tables -/

/-- The parts an instruction writes: the "written by" column of R10, and PC where R16 does not say PC0 + 2. -/
def partsWritten : Instr → List Part
  | .cls _ => [.display]
  | .ret _ => [.pc, .stack]
  | .jp _ => [.pc]
  | .call _ => [.pc, .stack]
  | .seImm _ _ | .sneImm _ _ | .seReg _ _ _ | .sneReg _ _ _ | .skp _ _ | .sknp _ _ => [.pc]
  | .ldImm _ _ | .addImm _ _ | .ldReg _ _ | .orReg _ _ | .andReg _ _ | .xorReg _ _ => [.regs]
  | .addReg _ _ | .sub _ _ | .shr _ _ | .subn _ _ | .shl _ _ => [.regs]
  | .ldI _ | .ldIV0 _ | .addIVx _ | .ldFVx _ => [.index]
  | .rnd _ _ => [.regs, .rand]
  | .drw _ _ _ => [.regs, .display]
  | .ldVxDt _ => [.regs]
  | .ldVxK _ => [.regs, .pc]
  | .ldDtVx _ | .ldStVx _ => [.timers]
  | .ldBVx _ => [.memory]
  | .ldMemVx _ => [.memory, .index]
  | .ldVxMem _ => [.regs, .index]

/-- The general registers an instruction may write: its named destination, and VF for the six of R13. -/
def mayWriteReg : Instr → Nib → Prop
  | .ldImm x _, r | .addImm x _, r | .ldReg x _, r | .orReg x _, r | .andReg x _, r | .xorReg x _, r => r = x
  | .addReg x _, r | .sub x _, r | .shr x _, r | .subn x _, r | .shl x _, r => r = x ∨ r = 0xF
  | .rnd x _, r | .ldVxDt x, r | .ldVxK x, r => r = x
  | .drw _ _ _, r => r = 0xF
  | .ldVxMem x, r => r.toNat ≤ x.toNat
  | .cls _, _ | .ret _, _ | .jp _, _ | .call _, _ | .seImm _ _, _ | .sneImm _ _, _ | .seReg _ _ _, _
  | .sneReg _ _ _, _ | .ldI _, _ | .ldIV0 _, _ | .skp _ _, _ | .sknp _ _, _ | .ldDtVx _, _ | .ldStVx _, _
  | .addIVx _, _ | .ldFVx _, _ | .ldBVx _, _ | .ldMemVx _, _ => False

/-- The addresses an instruction stores to (R34). -/
def storesTo (i : Instr) (s : State) (a : Nat) : Prop :=
  match i with
  | .ldBVx _ => s.i.toNat ≤ a ∧ a ≤ s.i.toNat + 2
  | .ldMemVx x => s.i.toNat ≤ a ∧ a ≤ s.i.toNat + x.toNat
  | _ => False

/-- Whether some key is pressed. -/
def anyKeyPressed (s : State) : Bool := (List.finRange 16).any (fun k => s.keys[k])

/-- KEY[V[X]], for V[X] a key code; false above 15, where SKP and SKNP fault. -/
def keyOfReg (s : State) (x : Nib) : Bool := s.keys.toList.getD (s.v x).toNat false

/-- PC at the end of a completed cycle (R16, the table). -/
def endPc (i : Instr) (s : State) : Word :=
  match i with
  | .jp nnn | .call nnn => BitVec.ofNat 16 nnn.toNat
  | .ret _ => s.stack.toList.getD (s.sp.val - 1) 0
  | .seImm x nn => if s.v x = nn then s.pc + 4 else s.pc + 2
  | .sneImm x nn => if s.v x = nn then s.pc + 2 else s.pc + 4
  | .seReg x y _ => if s.v x = s.v y then s.pc + 4 else s.pc + 2
  | .sneReg x y _ => if s.v x = s.v y then s.pc + 2 else s.pc + 4
  | .skp x _ => if keyOfReg s x then s.pc + 4 else s.pc + 2
  | .sknp x _ => if keyOfReg s x then s.pc + 2 else s.pc + 4
  | .ldVxK _ => if anyKeyPressed s then s.pc + 2 else s.pc
  | _ => s.pc + 2

/-- `max(a, 4096)` as FAULT.addr holds it (R36). -/
def outOfRangeAddr (a : Word) : Word := BitVec.ofNat 16 (max a.toNat 4096)

/-- The execute-phase fault of an instruction: its kind and FAULT.addr (R130, R36), or none. -/
def execFault (i : Instr) (s : State) : Option (BitVec 3 × Word) :=
  match i with
  | .drw _ _ n => if 1 ≤ n.toNat ∧ 4095 < s.i.toNat + n.toNat - 1 then some (2, outOfRangeAddr s.i) else none
  | .ldBVx _ => if 4095 < s.i.toNat + 2 then some (2, outOfRangeAddr s.i) else none
  | .ldMemVx x | .ldVxMem x => if 4095 < s.i.toNat + x.toNat then some (2, outOfRangeAddr s.i) else none
  | .call _ => if s.sp = 16 then some (3, 16) else none
  | .ret _ => if s.sp = 0 then some (3, 0) else none
  | .skp x _ | .sknp x _ => if 15 < (s.v x).toNat then some (4, BitVec.ofNat 16 (s.v x).toNat) else none
  | _ => none

/-- The word a fetch at PC joins, `256 * MEM[PC] + MEM[PC + 1]` (R61). -/
def wordAtPc (s : State) : Word :=
  BitVec.ofNat 16 (256 * (s.byte s.pc.toNat).toNat + (s.byte (s.pc.toNat + 1)).toNat)

/-- The cycle from `s` runs RND: the fetch succeeds and the word is one (R61, R110). -/
def runsRnd (s : State) : Prop := s.pc.toNat ≤ 4094 ∧ ∃ x nn, decodeWord (wordAtPc s) = .ok (.rnd x nn)

/-- The fault a cycle from `s` raises: its kind, FAULT.instr and FAULT.addr, by the priority of R136; or none. -/
def cycleFault (s : State) : Option (BitVec 3 × Word × Word) :=
  if 4094 < s.pc.toNat then some (2, 0, outOfRangeAddr s.pc)
  else
    match decodeWord (wordAtPc s) with
    | .error _ => some (1, wordAtPc s, 0)
    | .ok i => (execFault i s).map (fun f => (f.1, wordAtPc s, f.2))

/-! ## A sprite on the display (R107) -/

/-- The draw of N rows at origin (V[X], V[Y]) has a sprite 1-bit for the cell (cx, cy): bit `7 - col` of the byte at
I + row, wrapped column and row. -/
def spriteCovers (s : State) (x y n : Nib) (cx : Fin 64) (cy : Fin 32) : Prop :=
  ∃ row col : Nat, row < n.toNat ∧ col < 8 ∧ (s.byte (s.i.toNat + row)).getLsbD (7 - col) = true ∧
    ((s.v x).toNat + col) % 64 = cx.val ∧ ((s.v y).toNat + row) % 32 = cy.val

/-! ## Invariants -/

/-- PC and the return addresses stay where the spec says they can be from reset (R15, R71): PC at most 4098, every
occupied stack slot within 2 to 4096, the range of an npc. -/
def State.PcBounded (s : State) : Prop :=
  s.pc.toNat ≤ 4098 ∧ ∀ (k : Nat) (h : k < 16), k < s.sp.val → 2 ≤ s.stack[k].toNat ∧ s.stack[k].toNat ≤ 4096

/-- The FAULT record says what its kind lets it say (R24, R130): all 0 while not valid; else kind 1 with addr 0, kind 2
with addr above 4095, kind 3 with addr 0 or 16, or kind 4 with addr 16 to 255. -/
def FaultRecord.Legal (r : FaultRecord) : Prop :=
  if r.valid then
    (r.kind = 1 ∧ r.addr = 0) ∨ (r.kind = 2 ∧ 4096 ≤ r.addr.toNat) ∨ (r.kind = 3 ∧ (r.addr = 0 ∨ r.addr = 16)) ∨
      (r.kind = 4 ∧ 16 ≤ r.addr.toNat ∧ r.addr.toNat ≤ 255)
  else r.kind = 0 ∧ r.pc = 0 ∧ r.instr = 0 ∧ r.addr = 0

/-- The invariant of the machine: a configuration the spec allows (R5), canonical memory, bounded PC and return addresses, a
legal FAULT record, and a status that is 0 or a fault's code. -/
def State.Inv (s : State) : Prop :=
  s.config.wellFormed = true ∧ Memory.wf s.config s.mem = true ∧ s.PcBounded ∧ s.fault.Legal ∧ s.status.toNat ≤ 4

/-- No cycle has faulted since reset (R138). -/
def State.NeverFaulted (s : State) : Prop := s.fault.valid = false

/-- A parked program: PC = a with a <= 4094 and the word at PC a jump to PC (R160). Not a halt: cycles go on. -/
def State.Parked (s : State) : Prop := s.pc.toNat ≤ 4094 ∧ (wordAtPc s).toNat = 0x1000 + s.pc.toNat

end Sys2Proof.Machine
end

