-- ==== Sys2Proof/Certificates/Slice0/Obligations.lean ====
section
/-!
DEFINITION. The statements for the provers, from the numbered rules of spec/. Each docstring names the rules it rests on.
`exec i s` is the rest of the cycle of the instruction `i` that began in `s` (PC = PC0): its end state has the timers
ticked (R66).
A clause that rests on a decision the spec marks as its own, or on a log entry, is named in the docstring, and the
statement's basis is then 'derived'.
`CompletesWriting ps s t` is the frame: Ok, KEY, FAULT and the configuration untouched, and every part not in `ps` as a
completed cycle leaves it. `faulted s k w a` is the fault entry (R65). Both stand in `Sys2Proof/Safety.lean`.
-/

open Sys2Proof Sys2Proof.Machine

/-! ## Encoding -/

/-- Decoding the word of an instruction gives the instruction back, whatever its operands and don't-care bits (R46, R48 to
R54). The opcode numbers are the spec's own choice (its decision D4, log entry 4), and that a non-canonical word is accepted
is its decision D5. -/
def Obligations.DecodeAfterEncode : Prop := ∀ i : Instr, decodeWord (encode i) = .ok i

/-- Encoding what a word decodes to gives the word back: no bit of a fetched word is lost, so FAULT.instr can be computed
from the decoded instruction (R24, R46). That `Instr` keeps the don't-care bits is the model's choice (log entry 5). -/
def Obligations.EncodeAfterDecode : Prop := ∀ (w : Word) (i : Instr), decodeWord w = .ok i → encode i = w

/-- The rows of the four tables R49 to R53 as numbers: each word pattern decodes to its instruction with the fields of
R46, don't-care bits included. The numbers are the spec's own choice (its decision D4, log entry 4). -/
def Obligations.TableWordsDecode : Prop :=
  ∀ (x y n : Nib) (nn mid : Byte) (nnn : Imm12),
    (decodeWord (BitVec.ofNat 16 (0x1000 + nnn.toNat)) = .ok (.jp nnn) ∧
      decodeWord (BitVec.ofNat 16 (0x2000 + nnn.toNat)) = .ok (.call nnn) ∧
      decodeWord (BitVec.ofNat 16 (0x3000 + 256 * x.toNat + nn.toNat)) = .ok (.seImm x nn) ∧
      decodeWord (BitVec.ofNat 16 (0x4000 + 256 * x.toNat + nn.toNat)) = .ok (.sneImm x nn) ∧
      decodeWord (BitVec.ofNat 16 (0x5000 + 256 * x.toNat + 16 * y.toNat + n.toNat)) = .ok (.seReg x y n) ∧
      decodeWord (BitVec.ofNat 16 (0x6000 + 256 * x.toNat + nn.toNat)) = .ok (.ldImm x nn) ∧
      decodeWord (BitVec.ofNat 16 (0x7000 + 256 * x.toNat + nn.toNat)) = .ok (.addImm x nn) ∧
      decodeWord (BitVec.ofNat 16 (0x9000 + 256 * x.toNat + 16 * y.toNat + n.toNat)) = .ok (.sneReg x y n) ∧
      decodeWord (BitVec.ofNat 16 (0xA000 + nnn.toNat)) = .ok (.ldI nnn) ∧
      decodeWord (BitVec.ofNat 16 (0xB000 + nnn.toNat)) = .ok (.ldIV0 nnn) ∧
      decodeWord (BitVec.ofNat 16 (0xC000 + 256 * x.toNat + nn.toNat)) = .ok (.rnd x nn) ∧
      decodeWord (BitVec.ofNat 16 (0xD000 + 256 * x.toNat + 16 * y.toNat + n.toNat)) = .ok (.drw x y n)) ∧
    (decodeWord (BitVec.ofNat 16 (0x0000 + 16 * mid.toNat)) = .ok (.cls mid) ∧
      decodeWord (BitVec.ofNat 16 (0x000E + 16 * mid.toNat)) = .ok (.ret mid)) ∧
    (decodeWord (BitVec.ofNat 16 (0x8000 + 256 * x.toNat + 16 * y.toNat)) = .ok (.ldReg x y) ∧
      decodeWord (BitVec.ofNat 16 (0x8001 + 256 * x.toNat + 16 * y.toNat)) = .ok (.orReg x y) ∧
      decodeWord (BitVec.ofNat 16 (0x8002 + 256 * x.toNat + 16 * y.toNat)) = .ok (.andReg x y) ∧
      decodeWord (BitVec.ofNat 16 (0x8003 + 256 * x.toNat + 16 * y.toNat)) = .ok (.xorReg x y) ∧
      decodeWord (BitVec.ofNat 16 (0x8004 + 256 * x.toNat + 16 * y.toNat)) = .ok (.addReg x y) ∧
      decodeWord (BitVec.ofNat 16 (0x8005 + 256 * x.toNat + 16 * y.toNat)) = .ok (.sub x y) ∧
      decodeWord (BitVec.ofNat 16 (0x8006 + 256 * x.toNat + 16 * y.toNat)) = .ok (.shr x y) ∧
      decodeWord (BitVec.ofNat 16 (0x8007 + 256 * x.toNat + 16 * y.toNat)) = .ok (.subn x y) ∧
      decodeWord (BitVec.ofNat 16 (0x800E + 256 * x.toNat + 16 * y.toNat)) = .ok (.shl x y)) ∧
    (decodeWord (BitVec.ofNat 16 (0xE00E + 256 * x.toNat + 16 * n.toNat)) = .ok (.skp x n) ∧
      decodeWord (BitVec.ofNat 16 (0xE001 + 256 * x.toNat + 16 * n.toNat)) = .ok (.sknp x n)) ∧
    (decodeWord (BitVec.ofNat 16 (0xF007 + 256 * x.toNat)) = .ok (.ldVxDt x) ∧
      decodeWord (BitVec.ofNat 16 (0xF00A + 256 * x.toNat)) = .ok (.ldVxK x) ∧
      decodeWord (BitVec.ofNat 16 (0xF015 + 256 * x.toNat)) = .ok (.ldDtVx x) ∧
      decodeWord (BitVec.ofNat 16 (0xF018 + 256 * x.toNat)) = .ok (.ldStVx x) ∧
      decodeWord (BitVec.ofNat 16 (0xF01E + 256 * x.toNat)) = .ok (.addIVx x) ∧
      decodeWord (BitVec.ofNat 16 (0xF029 + 256 * x.toNat)) = .ok (.ldFVx x) ∧
      decodeWord (BitVec.ofNat 16 (0xF033 + 256 * x.toNat)) = .ok (.ldBVx x) ∧
      decodeWord (BitVec.ofNat 16 (0xF055 + 256 * x.toNat)) = .ok (.ldMemVx x) ∧
      decodeWord (BitVec.ofNat 16 (0xF065 + 256 * x.toNat)) = .ok (.ldVxMem x))

/-- Words of the spec's examples, one or more of every family, decode to what the spec says they are (R54, R71 to R116;
decisions D4, D5). -/
def Obligations.SpecExampleWordsDecode : Prop :=
  decodeWord 0x00E0 = .ok (.cls 0x0E) ∧ decodeWord 0x0000 = .ok (.cls 0x00) ∧ decodeWord 0x0FFE = .ok (.ret 0xFF) ∧
    decodeWord 0x1234 = .ok (.jp 0x234) ∧ decodeWord 0x2300 = .ok (.call 0x300) ∧
    decodeWord 0x332A = .ok (.seImm 3 0x2A) ∧ decodeWord 0x5121 = .ok (.seReg 1 2 1) ∧
    decodeWord 0x6A3D = .ok (.ldImm 0xA 0x3D) ∧ decodeWord 0x8014 = .ok (.addReg 0 1) ∧
    decodeWord 0x801E = .ok (.shl 0 1) ∧ decodeWord 0xA2F0 = .ok (.ldI 0x2F0) ∧
    decodeWord 0xC30F = .ok (.rnd 3 0x0F) ∧ decodeWord 0xD011 = .ok (.drw 0 1 1) ∧
    decodeWord 0xE59E = .ok (.skp 5 9) ∧ decodeWord 0xE3F1 = .ok (.sknp 3 0xF) ∧
    decodeWord 0xF40A = .ok (.ldVxK 4) ∧ decodeWord 0xF255 = .ok (.ldMemVx 2) ∧
    decodeWord 0x00E1 = .error (.invalidOpcode 0x00E1) ∧ decodeWord 0x8008 = .error (.invalidOpcode 0x8008)

/-- The invalid words are exactly those of R55's table, and the decoder names the word it rejects. They follow from the
spec's numbering (its decision D4, log entry 4). -/
def Obligations.InvalidWordsExactly : Prop :=
  ∀ w : Word,
    (decodeWord w = .error (.invalidOpcode w) ↔
      (w.toNat / 4096 = 0 ∧ w.toNat % 16 ≠ 0 ∧ w.toNat % 16 ≠ 14) ∨
        (w.toNat / 4096 = 8 ∧ 8 ≤ w.toNat % 16 ∧ w.toNat % 16 ≠ 14) ∨
        (w.toNat / 4096 = 14 ∧ w.toNat % 16 ≠ 1 ∧ w.toNat % 16 ≠ 14) ∨
        (w.toNat / 4096 = 15 ∧
          w.toNat % 256 ∉ [0x07, 0x0A, 0x15, 0x18, 0x1E, 0x29, 0x33, 0x55, 0x65])) ∧
      ∀ e, decodeWord w = .error e → e = .invalidOpcode w

/-- A word that differs from another only in don't-care bits executes identically (R54); where RET, SKP or SKNP faults, the
two end states differ in FAULT.instr alone, which records the word (R24). The spec marks this as its decision D5. -/
def Obligations.DontCareBitsChooseNothing : Prop :=
  (∀ d d' s, exec (.cls d) s = exec (.cls d') s) ∧
    (∀ x y d d' s, exec (.seReg x y d) s = exec (.seReg x y d') s) ∧
    (∀ x y d d' s, exec (.sneReg x y d) s = exec (.sneReg x y d') s) ∧
    (∀ d d' s, ∃ t t', exec (.ret d) s = .next t ∧ exec (.ret d') s = .next t' ∧
      t' = { t with fault := { t.fault with instr := t'.fault.instr } } ∧ (t.status = 0 → t' = t)) ∧
    (∀ x d d' s, ∃ t t', exec (.skp x d) s = .next t ∧ exec (.skp x d') s = .next t' ∧
      t' = { t with fault := { t.fault with instr := t'.fault.instr } } ∧ (t.status = 0 → t' = t)) ∧
    (∀ x d d' s, ∃ t t', exec (.sknp x d) s = .next t ∧ exec (.sknp x d') s = .next t' ∧
      t' = { t with fault := { t.fault with instr := t'.fault.instr } } ∧ (t.status = 0 → t' = t))

/-! ## The cycle -/

/-- A step runs the decoded instruction: where the two bytes at PC and PC + 1, joined as `256 * MEM[PC] + MEM[PC + 1]`,
decode to `i`, the step is `exec i` at the same state, and nothing is done around it (R60, R61, R63). -/
def Obligations.StepRunsDecodedInstruction : Prop :=
  ∀ (s : State) (i : Instr), s.pc.toNat ≤ 4094 → decodeWord (wordAtPc s) = .ok i → step s = exec i s

/-- Fetch: with PC at most 4094, even or odd, the word is `256 * MEM[PC] + MEM[PC + 1]`; with PC at 4095 or more the cycle
raises MemoryFault with FAULT.instr = 0 and FAULT.addr = max(PC, 4096) (R61; the fault is the spec's decision D9). -/
def Obligations.FetchReadsBigEndianOrFaults : Prop :=
  (∀ s : State, s.pc.toNat ≤ 4094 →
    ∃ w, s.fetch = some w ∧
      w.toNat = 256 * (s.byte s.pc.toNat).toNat + (s.byte (s.pc.toNat + 1)).toNat) ∧
    ∀ s : State, 4095 ≤ s.pc.toNat → step s = .next (faulted s 2 0 (BitVec.ofNat 16 (max s.pc.toNat 4096)))

/-- Every cycle, whatever the state, answers a next state: the one fault of `cycleFault` (R130's table by R136's priority)
with nothing but FAULT changed, or a completed cycle that leaves FAULT alone. The policy and the codes are the spec's
decisions D9 to D15; that the faulting cycle is a NEXT state is the model's reading (log entry 8), and `status`, where the
code also goes out, its own field (log entry 7). -/
def Obligations.EveryCycleIsOkOrItsOneFault : Prop :=
  ∀ s : State,
    match cycleFault s with
    | some (kind, instr, addr) => step s = .next (faulted s kind instr addr)
    | none => ∃ t, step s = .next t ∧ t.status = 0 ∧ t.fault = s.fault

/-- Every instruction, in every state, either takes the one execute-phase fault the table gives it there, or completes
having written only the parts R10's "written by" column gives it. The faults are the spec's decisions D9 to D15. -/
def Obligations.EveryInstructionFaultsOrKeepsItsFrame : Prop :=
  ∀ (i : Instr) (s : State),
    match execFault i s with
    | some (kind, addr) => exec i s = .next (faulted s kind (encode i) addr)
    | none => ∃ t, exec i s = .next t ∧ CompletesWriting (partsWritten i) s t

/-- No instruction changes a general register but its destination, and VF for the six that flag (R11, R13). -/
def Obligations.OnlyNamedRegistersChange : Prop :=
  ∀ (i : Instr) (s t : State), exec i s = .next t → ∀ r, ¬ mayWriteReg i r → t.v r = s.v r

/-- No instruction changes a byte of memory outside the addresses R34 says it stores to. -/
def Obligations.OnlyStoredBytesChange : Prop :=
  ∀ (i : Instr) (s t : State) (a : Nat),
    exec i s = .next t → ¬ storesTo i s a → t.byte a = s.byte a

/-- How each instruction leaves PC: R16's complete list, the row of a faulting cycle of any sort included. -/
def Obligations.PcAtTheEndOfEveryCycle : Prop :=
  (∀ (i : Instr) (s t : State), exec i s = .next t → t.pc = if t.status = 0 then endPc i s else s.pc) ∧
    ∀ s t : State, step s = .next t → t.status ≠ 0 → t.pc = s.pc

/-- Each timer is decremented by one, not below 0, once per completed cycle, from the value the handler left, whatever the
instruction (R66). -/
def Obligations.TimersTickOncePerCompletedCycle : Prop :=
  ∀ (i : Instr) (s t : State), exec i s = .next t → t.status = 0 →
    t.dt.toNat = (match i with | .ldDtVx x => (s.v x).toNat | _ => s.dt.toNat) - 1 ∧
      t.st.toNat = (match i with | .ldStVx x => (s.v x).toNat | _ => s.st.toNat) - 1

/-- The random port reaches nothing but RND: every other instruction does the same whatever the port holds and leaves it
as it is; RND's effect depends on the byte presented alone (R110; R68, which the spec marks as derived). The port as a queue
is the model's (log entry 6). -/
def Obligations.RandomByteReachesOnlyRnd : Prop :=
  (∀ (i : Instr) (s : State) (r : RandPort), (∀ x nn, i ≠ .rnd x nn) →
    ∃ t, exec i s = .next t ∧ t.rand = s.rand ∧ exec i { s with rand := r } = .next { t with rand := r }) ∧
    ∀ (x : Nib) (nn : Byte) (s : State) (r : RandPort), State.randByte { s with rand := r } = s.randByte →
      ∃ t t', exec (.rnd x nn) s = .next t ∧ exec (.rnd x nn) { s with rand := r } = .next t' ∧
        t' = { t with rand := t'.rand }

/-- No cycle changes KEY (R23: only the host does). -/
def Obligations.NoCycleChangesKeys : Prop := ∀ s t : State, step s = .next t → t.keys = s.keys

/-- FAULT.valid, once set, stays set through every move of the host but reset, and a completed cycle leaves the whole
record alone (R24, R138; the sticky bit is the spec's decision D11). -/
def Obligations.FaultValidIsSticky : Prop :=
  (∀ (s : State) (op : HostOp), op ≠ .reset → s.fault.valid = true → (s.apply op).fault.valid = true) ∧
    ∀ s t : State, step s = .next t → t.status = 0 → t.fault = s.fault

/-- A parked program stays parked: the cycle completes at the same PC, and only the timers move (R160; "parked" is the spec's
decision D29). -/
def Obligations.ParkedStaysParked : Prop :=
  ∀ s : State, s.Parked → ∃ t, step s = .next t ∧ t.Parked ∧ t.pc = s.pc ∧ CompletesWriting [.pc] s t

/-! ## Invariants -/

/-- Every step keeps memory in its canonical form: rising addresses below 4096, no redundant entry. The form is the model's
(log entry 9); that no byte outside 0 to 4095 is ever stored is R30, R35, R36. -/
def Obligations.StepKeepsMemoryCanonical : Prop :=
  ∀ s t : State, Memory.wf s.config s.mem = true → step s = .next t → Memory.wf t.config t.mem = true

/-- Every step keeps PC at most 4098 and every occupied stack slot within 2 to 4096, the range of an npc (R71; the bound of
PC is marked as derived in R15). -/
def Obligations.StepKeepsPcBounded : Prop := ∀ s t : State, s.PcBounded → step s = .next t → t.PcBounded

/-- Every step keeps the FAULT record legal: its fields as its kind lets them be (R24, R130; decision D11). -/
def Obligations.StepKeepsFaultRecordLegal : Prop :=
  ∀ s t : State, s.fault.Legal → step s = .next t → t.fault.Legal

/-- The state after reset meets the invariant, with every configuration R5 allows, and with the defaults, which are PRESUMED
(log entries 1 to 3); the invariant's clause on `status` is about the model's own field (log entry 7). -/
def Obligations.ResetMeetsInvariant : Prop :=
  (∀ p : Params, p.wellFormed = true → (State.resetWith p).Inv) ∧ State.reset.Inv

/-- Every sequence of moves of the host, cycles among them, keeps the invariant (R129, decision D30). -/
def Obligations.HostMovesKeepInvariant : Prop :=
  ∀ (s : State) (ops : List HostOp), s.Inv → (s.applyAll ops).Inv

/-! ## Control flow -/

/-- JP: `PC <- zext_16(NNN)`, nothing else (R72). -/
def Obligations.JumpSetsPc : Prop :=
  ∀ (nnn : Imm12) (s : State), ∃ t, exec (.jp nnn) s = .next t ∧ CompletesWriting [.pc] s t ∧ t.pc.toNat = nnn.toNat

/-- CALL: below 16 occupied slots, STACK[SP] gets npc, SP one more, PC gets NNN, the other slots stay; at 16, StackFault
with addr 16 (R73; the stack's convention is the spec's decision D14, the fault its D9). -/
def Obligations.CallPushesNpcOrFaults : Prop :=
  ∀ (nnn : Imm12) (s : State),
    (s.sp.val < 16 → ∃ t, exec (.call nnn) s = .next t ∧ CompletesWriting [.pc, .stack] s t ∧
      t.pc.toNat = nnn.toNat ∧ t.sp.val = s.sp.val + 1 ∧
      ∀ (k : Nat) (h : k < 16), t.stack[k] = if k = s.sp.val then s.pc + 2 else s.stack[k]) ∧
    (s.sp = 16 → exec (.call nnn) s = .next (faulted s 3 (encode (.call nnn)) 16))

/-- RET: with a slot occupied, PC gets the top slot and SP is one less, the slots keep their values; with none,
StackFault with addr 0 (R71; the stack's convention is the spec's decision D14, the fault its D9). -/
def Obligations.ReturnPopsOrFaults : Prop :=
  ∀ (dc : BitVec 8) (s : State),
    (∀ h : 0 < s.sp.val, ∃ t, exec (.ret dc) s = .next t ∧ CompletesWriting [.pc, .stack] s t ∧
      t.pc = s.stack[s.sp.val - 1]'(by omega) ∧ t.sp.val = s.sp.val - 1 ∧ t.stack = s.stack) ∧
    (s.sp = 0 → exec (.ret dc) s = .next (faulted s 3 (encode (.ret dc)) 0))

/-- SE_IMM and SNE_IMM: PC + 4 when the comparison of V[X] with NN holds, PC + 2 when not, nothing else (R74, R75). -/
def Obligations.ImmediateSkips : Prop :=
  ∀ (x : Nib) (nn : Byte) (s : State),
    (∃ t, exec (.seImm x nn) s = .next t ∧ CompletesWriting [.pc] s t ∧
      t.pc = if (s.v x).toNat = nn.toNat then s.pc + 4 else s.pc + 2) ∧
    ∃ t, exec (.sneImm x nn) s = .next t ∧ CompletesWriting [.pc] s t ∧
      t.pc = if (s.v x).toNat = nn.toNat then s.pc + 2 else s.pc + 4

/-- SE_REG and SNE_REG: PC + 4 when the comparison of V[X] with V[Y] holds, PC + 2 when not, nothing else; X = Y always
skips the first and never the second (R76, R77). -/
def Obligations.RegisterSkips : Prop :=
  ∀ (x y : Nib) (dc : BitVec 4) (s : State),
    (∃ t, exec (.seReg x y dc) s = .next t ∧ CompletesWriting [.pc] s t ∧
      t.pc = if (s.v x).toNat = (s.v y).toNat then s.pc + 4 else s.pc + 2) ∧
    ∃ t, exec (.sneReg x y dc) s = .next t ∧ CompletesWriting [.pc] s t ∧
      t.pc = if (s.v x).toNat = (s.v y).toNat then s.pc + 2 else s.pc + 4

/-! ## Register load, arithmetic, logic, shift -/

/-- LD_IMM: `V[X] <- NN`; no other register changes (R81). -/
def Obligations.LoadImmediate : Prop :=
  ∀ (x : Nib) (nn : Byte) (s : State), ∃ t, exec (.ldImm x nn) s = .next t ∧ CompletesWriting [.regs] s t ∧
    t.v x = nn ∧ ∀ r, r ≠ x → t.v r = s.v r

/-- ADD_IMM: `V[X] <- (V[X] + NN) mod 256`; no other register changes, VF among them (R82). -/
def Obligations.AddImmediateWritesNoFlag : Prop :=
  ∀ (x : Nib) (nn : Byte) (s : State), ∃ t, exec (.addImm x nn) s = .next t ∧ CompletesWriting [.regs] s t ∧
    (t.v x).toNat = ((s.v x).toNat + nn.toNat) % 256 ∧ ∀ r, r ≠ x → t.v r = s.v r

/-- LD_REG: `V[X] <- V[Y]`, no other register changes, VF among them (R83; that the move has no `op` is the spec's reading,
C5 of spec/90_conflicts.md). -/
def Obligations.MoveCopiesRegister : Prop :=
  ∀ (x y : Nib) (s : State), ∃ t, exec (.ldReg x y) s = .next t ∧ CompletesWriting [.regs] s t ∧ t.v x = s.v y ∧
    ∀ r, r ≠ x → t.v r = s.v r

/-- OR, AND, XOR: `V[X] <- V[X] op V[Y]`, bit by bit; no other register changes, VF among them (R84 to R86). -/
def Obligations.BitwiseWritesNoFlag : Prop :=
  ∀ (x y : Nib) (s : State),
    (∃ t, exec (.orReg x y) s = .next t ∧ CompletesWriting [.regs] s t ∧
      (∀ k, (t.v x).getLsbD k = ((s.v x).getLsbD k || (s.v y).getLsbD k)) ∧ ∀ r, r ≠ x → t.v r = s.v r) ∧
    (∃ t, exec (.andReg x y) s = .next t ∧ CompletesWriting [.regs] s t ∧
      (∀ k, (t.v x).getLsbD k = ((s.v x).getLsbD k && (s.v y).getLsbD k)) ∧ ∀ r, r ≠ x → t.v r = s.v r) ∧
    ∃ t, exec (.xorReg x y) s = .next t ∧ CompletesWriting [.regs] s t ∧
      (∀ k, (t.v x).getLsbD k = ((s.v x).getLsbD k ^^ (s.v y).getLsbD k)) ∧ ∀ r, r ≠ x → t.v r = s.v r

/-- ADD_REG. The carry goes to VF and the sum mod 256 to V[X], the sum last; VF as Y is the old VF, VF as X
keeps the sum (R87). -/
def Obligations.AddRegisterEndValues : Prop :=
  ∀ (x y : Nib) (s : State), ∃ t, exec (.addReg x y) s = .next t ∧ CompletesWriting [.regs] s t ∧
    (∀ r, r ≠ x → r ≠ 0xF → t.v r = s.v r) ∧
    (t.v x).toNat = ((s.v x).toNat + (s.v y).toNat) % 256 ∧
    (x ≠ 0xF → (t.v 0xF).toNat = if 255 < (s.v x).toNat + (s.v y).toNat then 1 else 0)

/-- SUB: R92's row, case by case, with a = V[X], b = V[Y] and f0 = VF before (R88; the cases with VF as an operand
are R92, derived from the spec's decision D7). -/
def Obligations.SubtractEndValues : Prop :=
  ∀ (x y : Nib) (s : State), ∃ t, exec (.sub x y) s = .next t ∧ CompletesWriting [.regs] s t ∧
    (∀ r, r ≠ x → r ≠ 0xF → t.v r = s.v r) ∧
    (x ≠ 0xF → (t.v 0xF).toNat = if (s.v y).toNat < (s.v x).toNat then 1 else 0) ∧
    (x ≠ 0xF → y ≠ 0xF → (t.v x).toNat = (256 + (s.v x).toNat - (s.v y).toNat) % 256) ∧
    (x ≠ 0xF → y = 0xF →
      (t.v x).toNat = (s.v x).toNat - (if (s.v 0xF).toNat < (s.v x).toNat then 1 else 0)) ∧
    (x = 0xF → y ≠ 0xF →
      (t.v 0xF).toNat = (256 + (if (s.v y).toNat < (s.v 0xF).toNat then 1 else 0) - (s.v y).toNat) % 256) ∧
    (x = 0xF → y = 0xF → t.v 0xF = 0)

/-- SUBN: R92's row, case by case (R90; the cases with VF as an operand are R92, derived from the spec's decision D7). -/
def Obligations.ReverseSubtractEndValues : Prop :=
  ∀ (x y : Nib) (s : State), ∃ t, exec (.subn x y) s = .next t ∧ CompletesWriting [.regs] s t ∧
    (∀ r, r ≠ x → r ≠ 0xF → t.v r = s.v r) ∧
    (x ≠ 0xF → (t.v 0xF).toNat = if (s.v x).toNat < (s.v y).toNat then 1 else 0) ∧
    (x ≠ 0xF → y ≠ 0xF → (t.v x).toNat = (256 + (s.v y).toNat - (s.v x).toNat) % 256) ∧
    (x ≠ 0xF → y = 0xF →
      (t.v x).toNat = (256 + (if (s.v x).toNat < (s.v 0xF).toNat then 1 else 0) - (s.v x).toNat) % 256) ∧
    (x = 0xF → y ≠ 0xF →
      (t.v 0xF).toNat = (s.v y).toNat - (if (s.v 0xF).toNat < (s.v y).toNat then 1 else 0)) ∧
    (x = 0xF → y = 0xF → t.v 0xF = 0)

/-- SHR: R92's row, case by case: the source is V[Y], the flag its bit 0 (R89; the cases with VF as an operand are R92,
derived from the spec's decision D7). -/
def Obligations.ShiftRightEndValues : Prop :=
  ∀ (x y : Nib) (s : State), ∃ t, exec (.shr x y) s = .next t ∧ CompletesWriting [.regs] s t ∧
    (∀ r, r ≠ x → r ≠ 0xF → t.v r = s.v r) ∧
    (x ≠ 0xF → (t.v 0xF).toNat = (s.v y).toNat % 2) ∧
    (y ≠ 0xF → (t.v x).toNat = (s.v y).toNat / 2) ∧
    (y = 0xF → t.v x = 0)

/-- SHL: R92's row, case by case: the source is V[Y], the flag its bit 0, not the bit shifted out (R91; the flag is the
spec's decision D8, the cases with VF as an operand its D7). -/
def Obligations.ShiftLeftEndValues : Prop :=
  ∀ (x y : Nib) (s : State), ∃ t, exec (.shl x y) s = .next t ∧ CompletesWriting [.regs] s t ∧
    (∀ r, r ≠ x → r ≠ 0xF → t.v r = s.v r) ∧
    (x ≠ 0xF → (t.v 0xF).toNat = (s.v y).toNat % 2) ∧
    (y ≠ 0xF → (t.v x).toNat = 2 * (s.v y).toNat % 256) ∧
    (y = 0xF → (t.v x).toNat = 2 * ((s.v 0xF).toNat % 2))

/-! ## Index register and memory -/

/-- LD_I: `I <- NNN`. LD_I_V0: `I <- NNN + V0`, PC moving on by 2 like any non-jump (R96, R97). -/
def Obligations.IndexFromImmediate : Prop :=
  ∀ (nnn : Imm12) (s : State),
    (∃ t, exec (.ldI nnn) s = .next t ∧ CompletesWriting [.index] s t ∧ t.i.toNat = nnn.toNat) ∧
    ∃ t, exec (.ldIV0 nnn) s = .next t ∧ CompletesWriting [.index] s t ∧ t.i.toNat = nnn.toNat + (s.v 0).toNat

/-- ADD_I_VX: `I <- (I + V[X]) mod 65536`, no register written. LD_F_VX: `I <- (FONT_BASE + 5 * V[X]) mod 65536`, V[X]
used whole (R98, R99). FONT_BASE is the configuration's, whatever it is. -/
def Obligations.IndexFromRegister : Prop :=
  ∀ (x : Nib) (s : State),
    (∃ t, exec (.addIVx x) s = .next t ∧ CompletesWriting [.index] s t ∧
      t.i.toNat = (s.i.toNat + (s.v x).toNat) % 65536) ∧
    ∃ t, exec (.ldFVx x) s = .next t ∧ CompletesWriting [.index] s t ∧
      t.i.toNat = (s.config.fontBase + 5 * (s.v x).toNat) % 65536

/-- LD_B_VX: hundreds, tens, units of V[X] at I, I + 1, I + 2, all other bytes and I unchanged; MemoryFault with nothing
written when I + 2 is above 4095 (R100; the fault is the spec's decisions D9, D13). -/
def Obligations.BcdStoresThreeDigitsOrFaults : Prop :=
  ∀ (x : Nib) (s : State),
    (s.i.toNat + 2 ≤ 4095 → ∃ t, exec (.ldBVx x) s = .next t ∧ CompletesWriting [.memory] s t ∧
      (t.byte s.i.toNat).toNat = (s.v x).toNat / 100 ∧
      (t.byte (s.i.toNat + 1)).toNat = (s.v x).toNat / 10 % 10 ∧
      (t.byte (s.i.toNat + 2)).toNat = (s.v x).toNat % 10 ∧
      ∀ a, (a < s.i.toNat ∨ s.i.toNat + 2 < a) → t.byte a = s.byte a) ∧
    (4095 < s.i.toNat + 2 → exec (.ldBVx x) s = .next (faulted s 2 (encode (.ldBVx x)) (outOfRangeAddr s.i)))

/-- LD_MEM_VX: V[k] at I + k for k from 0 to X, all other bytes unchanged, `I <- (I + X + 1) mod 65536`; MemoryFault with
nothing written when I + X is above 4095 (R101; the fault is the spec's decisions D9, D13). -/
def Obligations.RegisterDumpOrFaults : Prop :=
  ∀ (x : Nib) (s : State),
    (s.i.toNat + x.toNat ≤ 4095 → ∃ t, exec (.ldMemVx x) s = .next t ∧ CompletesWriting [.memory, .index] s t ∧
      (∀ k : Nib, k.toNat ≤ x.toNat → t.byte (s.i.toNat + k.toNat) = s.v k) ∧
      (∀ a, (a < s.i.toNat ∨ s.i.toNat + x.toNat < a) → t.byte a = s.byte a) ∧
      t.i.toNat = (s.i.toNat + x.toNat + 1) % 65536) ∧
    (4095 < s.i.toNat + x.toNat →
      exec (.ldMemVx x) s = .next (faulted s 2 (encode (.ldMemVx x)) (outOfRangeAddr s.i)))

/-- LD_VX_MEM: V[k] from I + k for k from 0 to X, the registers above X untouched, `I <- (I + X + 1) mod 65536`;
MemoryFault with no register written when I + X is above 4095 (R102; the fault is the spec's decisions D9, D13). -/
def Obligations.RegisterLoadOrFaults : Prop :=
  ∀ (x : Nib) (s : State),
    (s.i.toNat + x.toNat ≤ 4095 → ∃ t, exec (.ldVxMem x) s = .next t ∧ CompletesWriting [.regs, .index] s t ∧
      (∀ k : Nib, t.v k = if k.toNat ≤ x.toNat then s.byte (s.i.toNat + k.toNat) else s.v k) ∧
      t.i.toNat = (s.i.toNat + x.toNat + 1) % 65536) ∧
    (4095 < s.i.toNat + x.toNat →
      exec (.ldVxMem x) s = .next (faulted s 2 (encode (.ldVxMem x)) (outOfRangeAddr s.i)))

/-- Round trip: V0..VX dumped at I and then loaded from the same address, by a state that reads the dump's memory and has
the old I, come back (R102's property). -/
def Obligations.DumpThenLoadRecovers : Prop :=
  ∀ (x : Nib) (s t u : State), exec (.ldMemVx x) s = .next t → t.status = 0 →
    (∀ a, u.byte a = t.byte a) → u.i = s.i →
    ∃ v, exec (.ldVxMem x) u = .next v ∧ v.status = 0 ∧ v.i = t.i ∧ ∀ k : Nib, k.toNat ≤ x.toNat → v.v k = s.v k

/-- A store is seen by the very next fetch: two registers dumped at a and a + 1 are the word fetched at PC = a (R42; the
spec's decision D28). -/
def Obligations.StoreIsSeenByNextFetch : Prop :=
  ∀ (x : Nib) (s t : State), exec (.ldMemVx x) s = .next t → t.status = 0 →
    ∀ k : Nib, k.toNat + 1 ≤ x.toNat →
      (t.setPc (s.i + k.setWidth 16)).fetch = some (BitVec.ofNat 16 (256 * (s.v k).toNat + (s.v (k + 1)).toNat))

/-! ## Display -/

/-- CLS: every cell unset; VF and all else untouched (R106). -/
def Obligations.ClearDisplayUnsetsEveryCell : Prop :=
  ∀ (dc : BitVec 8) (s : State), ∃ t, exec (.cls dc) s = .next t ∧ CompletesWriting [.display] s t ∧
    ∀ x y, Display.cell t.disp x y = false

/-- DRW: a cell under a sprite 1-bit is inverted, every other is left alone; VF is 1 iff a cell under a 1-bit was set, else
0; the origin is the old V[X], V[Y]; MemoryFault with nothing drawn when a row lies above 4095, never for N = 0
(R107; the fault is the spec's decisions D9, D13, the latched origin its D16). -/
def Obligations.DrawXorsSpriteOrFaults : Prop :=
  ∀ (x y n : Nib) (s : State),
    (n.toNat = 0 ∨ s.i.toNat + n.toNat - 1 ≤ 4095 →
      ∃ t, exec (.drw x y n) s = .next t ∧ CompletesWriting [.regs, .display] s t ∧
        (∀ cx cy, spriteCovers s x y n cx cy → Display.cell t.disp cx cy = !Display.cell s.disp cx cy) ∧
        (∀ cx cy, ¬ spriteCovers s x y n cx cy → Display.cell t.disp cx cy = Display.cell s.disp cx cy) ∧
        ((∃ cx cy, spriteCovers s x y n cx cy ∧ Display.cell s.disp cx cy = true) → t.v 0xF = 1) ∧
        ((¬ ∃ cx cy, spriteCovers s x y n cx cy ∧ Display.cell s.disp cx cy = true) → t.v 0xF = 0) ∧
        ∀ r, r ≠ 0xF → t.v r = s.v r) ∧
    (1 ≤ n.toNat → 4095 < s.i.toNat + n.toNat - 1 →
      exec (.drw x y n) s = .next (faulted s 2 (encode (.drw x y n)) (outOfRangeAddr s.i)))

/-- Drawing a sprite again at the same origin, I and sprite bytes being the same, restores the display exactly, and the
second VF is 1 iff some targeted cell was unset before the first draw (R108, which the spec marks as derived). -/
def Obligations.DrawTwiceRestoresDisplay : Prop :=
  ∀ (x y n : Nib) (s t u : State), exec (.drw x y n) s = .next t → t.status = 0 → u.disp = t.disp →
    (∀ a, u.byte a = s.byte a) → u.i = s.i → u.v x = s.v x → u.v y = s.v y →
    ∃ v, exec (.drw x y n) u = .next v ∧ v.status = 0 ∧ v.disp = s.disp ∧
      (v.v 0xF = 1 ↔ ∃ cx cy, spriteCovers s x y n cx cy ∧ Display.cell s.disp cx cy = false)

/-! ## Random, keys, timers -/

/-- RND: V[X] gets the presented byte AND NN, exactly one byte is consumed; with none presented the byte is the free
value, so the claim holds for every value of it (R110, R127; the queue and the free value are the model's, log entry 6). -/
def Obligations.RandomAndConsumesOneByte : Prop :=
  ∀ (x : Nib) (nn : Byte) (s : State), ∃ t, exec (.rnd x nn) s = .next t ∧ CompletesWriting [.regs, .rand] s t ∧
    (∀ b rest, s.rand.queue = b :: rest → t.v x = b &&& nn ∧ t.rand.queue = rest) ∧
    (s.rand.queue = [] → t.v x = Config.freeRand s.rand.drawn &&& nn ∧ t.rand.queue = []) ∧
    t.rand.drawn = s.rand.drawn + 1 ∧ t.v x &&& ~~~nn = 0 ∧ ∀ r, r ≠ x → t.v r = s.v r

/-- SKP and SKNP: for V[X] at most 15, PC + 4 when KEY[V[X]] is 1 (SKP) or 0 (SKNP), PC + 2 when not, nothing else;
above 15, KeypadFault with addr V[X] (R111, R112; the fault is the spec's decision D15). -/
def Obligations.KeySkipsOrFault : Prop :=
  ∀ (x : Nib) (dc : BitVec 4) (s : State),
    (∀ h : (s.v x).toNat < 16,
      (∃ t, exec (.skp x dc) s = .next t ∧ CompletesWriting [.pc] s t ∧
        t.pc = if s.keys[(s.v x).toNat] then s.pc + 4 else s.pc + 2) ∧
      ∃ t, exec (.sknp x dc) s = .next t ∧ CompletesWriting [.pc] s t ∧
        t.pc = if s.keys[(s.v x).toNat] then s.pc + 2 else s.pc + 4) ∧
    (15 < (s.v x).toNat →
      exec (.skp x dc) s = .next (faulted s 4 (encode (.skp x dc)) (BitVec.ofNat 16 (s.v x).toNat)) ∧
      exec (.sknp x dc) s = .next (faulted s 4 (encode (.sknp x dc)) (BitVec.ofNat 16 (s.v x).toNat)))

/-- LD_VX_K: the least pressed code goes to V[X] and PC moves on; with no key pressed V[X] is not written and PC stays, the
timers running (R114). -/
def Obligations.KeyWaitTakesLeastKeyOrStays : Prop :=
  ∀ (x : Nib) (s : State),
    (∀ k : Nib, s.key k = true → (∀ j : Nib, j.toNat < k.toNat → s.key j = false) →
      ∃ t, exec (.ldVxK x) s = .next t ∧ CompletesWriting [.regs] s t ∧ (t.v x).toNat = k.toNat ∧
        ∀ r, r ≠ x → t.v r = s.v r) ∧
    ((∀ k : Nib, s.key k = false) →
      ∃ t, exec (.ldVxK x) s = .next t ∧ CompletesWriting [.pc] s t ∧ t.pc = s.pc)

/-- LD_VX_DT: V[X] gets DT as it was before this cycle's tick (R113). -/
def Obligations.ReadDelayTimer : Prop :=
  ∀ (x : Nib) (s : State), ∃ t, exec (.ldVxDt x) s = .next t ∧ CompletesWriting [.regs] s t ∧
    t.v x = s.dt ∧ ∀ r, r ≠ x → t.v r = s.v r

/-- LD_DT_VX and LD_ST_VX: the timer gets V[X], and this same cycle's tick takes one off; the other timer just ticks
(R115, R116; the end value is marked as derived there, from R66). -/
def Obligations.SetTimers : Prop :=
  ∀ (x : Nib) (s : State),
    (∃ t, exec (.ldDtVx x) s = .next t ∧ CompletesWriting [.timers] s t ∧
      t.dt.toNat = (s.v x).toNat - 1 ∧ t.st.toNat = s.st.toNat - 1) ∧
    ∃ t, exec (.ldStVx x) s = .next t ∧ CompletesWriting [.timers] s t ∧
      t.st.toNat = (s.v x).toNat - 1 ∧ t.dt.toNat = s.dt.toNat - 1

/-! ## Reset and the host's moves -/

/-- The values after reset, with every configuration R5 allows; `State.reset` is that state with the default parameters (R28;
FAULT's reset is the spec's decision D22, the defaults are PRESUMED, log entries 1 to 3). -/
def Obligations.ResetValues : Prop :=
  (∀ p : Params, p.wellFormed = true →
    (∀ r, (State.resetWith p).v r = 0) ∧ (State.resetWith p).i = 0 ∧ (State.resetWith p).pc.toNat = p.programStart ∧
      (∀ (k : Nat) (h : k < 16), (State.resetWith p).stack[k] = 0) ∧ (State.resetWith p).sp = 0 ∧
      (State.resetWith p).dt = 0 ∧ (State.resetWith p).st = 0 ∧ (∀ k, (State.resetWith p).key k = false) ∧
      (∀ x y, Display.cell (State.resetWith p).disp x y = false) ∧
      (∀ (k : Nat) (h : k < p.fontData.length), (State.resetWith p).byte (p.fontBase + k) = p.fontData[k]) ∧
      (∀ a, a ≤ 4095 → (a < p.fontBase ∨ p.fontBase + 80 ≤ a) → (State.resetWith p).byte a = 0) ∧
      (State.resetWith p).fault = { valid := false, kind := 0, pc := 0, instr := 0, addr := 0 } ∧
      (State.resetWith p).config = p) ∧
    State.reset = State.resetWith params

/-- The host's reset brings every piece of state to its reset value, FAULT included, from any state, and leaves the random
source alone (R121, the spec's decision D22). `status`, the model's own field, is then 0, which is the model's choice (log
entry 7); the configuration stays (R5). -/
def Obligations.HostResetFromAnyState : Prop :=
  ∀ (s : State) (ops : List HostOp),
    (s.applyAll (ops ++ [.reset])) = { State.resetWith s.config with rand := (s.applyAll ops).rand }

/-- The host's other moves (load, press, release, presenting bytes) write nothing but MEM from PROGRAM_START up, KEY and the
random port, and draw no byte (R129's table; the moves as the whole interface are the spec's decision D18). That a move
presents bytes, and that the port with its count of drawn bytes is a field, is the model's choice (log entries 6, 11). -/
def Obligations.HostWritesOnlyProgramKeysAndPort : Prop :=
  ∀ (s : State) (op : HostOp), op ≠ .reset → op ≠ .cycle →
    s.apply op =
        { s with mem := (s.apply op).mem, keys := (s.apply op).keys, rand := (s.apply op).rand } ∧
      (∀ a, a < s.config.programStart → (s.apply op).byte a = s.byte a) ∧
      (s.apply op).rand.drawn = s.rand.drawn

/-- Load: a sequence that fits is written from PROGRAM_START upward and nothing else changes; a longer one is rejected
with no state change (R122; the rejection is the spec's decision D19). -/
def Obligations.LoadWritesProgramOrRejects : Prop :=
  ∀ (s : State) (bytes : List Byte),
    (bytes.length ≤ 4096 - s.config.programStart → ∃ t, s.load bytes = (true, t) ∧ t = { s with mem := t.mem } ∧
      (∀ k (h : k < bytes.length), t.byte (s.config.programStart + k) = bytes[k]) ∧
      ∀ a, (a < s.config.programStart ∨ s.config.programStart + bytes.length ≤ a) → t.byte a = s.byte a) ∧
    (4096 - s.config.programStart < bytes.length → s.load bytes = (false, s))

/-- Press and release: one KEY bit set or cleared, nothing else (R124; the 4-bit code is the spec's decision D20). -/
def Obligations.PressAndReleaseOneKey : Prop :=
  ∀ (s : State) (c : Nib),
    (∀ k, (s.apply (.pressKey c)).key k = if k = c then true else s.key k) ∧
    (∀ k, (s.apply (.releaseKey c)).key k = if k = c then false else s.key k) ∧
    s.apply (.pressKey c) = { s with keys := (s.apply (.pressKey c)).keys } ∧
    s.apply (.releaseKey c) = { s with keys := (s.apply (.releaseKey c)).keys }

/-- The snapshot as a vector: bit `64 * y + x` of `disp_out` is cell (x, y) (R125; the layout is the spec's decision D26). -/
def Obligations.SnapshotIsRowMajor : Prop :=
  ∀ (s : State) (x : Fin 64) (y : Fin 32) (k : Fin 2048), k.val = 64 * y.val + x.val →
    s.dispOut k = Display.cell s.snapshot x y ∧ s.snapshot = s.disp

/-! ## The step as a function of the CORE's state -/

/-- The step is R60's function: the CORE's next state and the status are a function of the CORE's state, the configuration
and one random byte (R60), which is read only when the instruction is RND (R68, which the spec marks as derived); no step
changes the configuration (R5). The byte is the one the port presents, and it is taken off the port only by an RND: the port
is the model's (log entry 6). -/
def Obligations.StepIsCycleOfCoreStateAndByte : Prop :=
  ∀ s : State,
    (∃ t, step s = .next t ∧ (t.status, t.toCoreState) = s.toCoreState.cycle s.config s.randByte ∧ t.config = s.config ∧
      (runsRnd s → t.rand = s.consumeRand.rand) ∧ (¬ runsRnd s → t.rand = s.rand)) ∧
    (¬ runsRnd s → ∀ b b' : Byte, s.toCoreState.cycle s.config b = s.toCoreState.cycle s.config b')
end

