-- ==== Sys2Proof/Laws/Decode.lean ====
section
/-!
SUPPORT. Words and their fields as numbers, and how the fields of a built word read (spec R45, R46).
-/

namespace Sys2Proof

/-! ## Words as numbers -/

/-- A concatenation as a number. -/
theorem toNat_append' {m n : Nat} (a : BitVec m) (b : BitVec n) : (a ++ b).toNat = a.toNat * 2 ^ n + b.toNat := by
  rw [BitVec.toNat_append, ← Nat.shiftLeft_add_eq_or_of_lt b.isLt, Nat.shiftLeft_eq]

section Numbers
variable (op x y n : Nib) (nn mid hi lo : Byte) (nnn : Imm12) (w : Word)

theorem wordNNN_toNat : (wordNNN op nnn).toNat = op.toNat * 4096 + nnn.toNat := toNat_append' op nnn

theorem wordXNN_toNat : (wordXNN op x nn).toNat = op.toNat * 4096 + x.toNat * 256 + nn.toNat := by
  have h := toNat_append' (op ++ x) nn
  rw [toNat_append' op x] at h
  exact h.trans (by omega)

theorem wordXYN_toNat : (wordXYN op x y n).toNat = op.toNat * 4096 + x.toNat * 256 + y.toNat * 16 + n.toNat := by
  have h := toNat_append' (op ++ x ++ y) n
  rw [toNat_append' (op ++ x) y, toNat_append' op x] at h
  exact h.trans (by omega)

theorem wordMid_toNat : (wordMid op mid n).toNat = op.toNat * 4096 + mid.toNat * 16 + n.toNat := by
  have h := toNat_append' (op ++ mid) n
  rw [toNat_append' op mid] at h
  exact h.trans (by omega)

/-- A fetched word is `256 * MEM[PC] + MEM[PC + 1]` (R61). -/
theorem joinBytes_toNat : (joinBytes hi lo).toNat = hi.toNat * 256 + lo.toNat := toNat_append' hi lo

theorem opField_toNat : (opField w).toNat = w.toNat / 4096 % 16 := by
  simp [opField, BitVec.extractLsb'_toNat, Nat.shiftRight_eq_div_pow]
theorem xField_toNat : (xField w).toNat = w.toNat / 256 % 16 := by
  simp [xField, BitVec.extractLsb'_toNat, Nat.shiftRight_eq_div_pow]
theorem yField_toNat : (yField w).toNat = w.toNat / 16 % 16 := by
  simp [yField, BitVec.extractLsb'_toNat, Nat.shiftRight_eq_div_pow]
theorem nField_toNat : (nField w).toNat = w.toNat % 16 := by
  simp [nField, BitVec.extractLsb'_toNat]
theorem nnField_toNat : (nnField w).toNat = w.toNat % 256 := by
  simp [nnField, BitVec.extractLsb'_toNat]
theorem nnnField_toNat : (nnnField w).toNat = w.toNat % 4096 := by
  simp [nnnField, BitVec.extractLsb'_toNat]
theorem midField_toNat : (midField w).toNat = w.toNat / 16 % 256 := by
  simp [midField, BitVec.extractLsb'_toNat, Nat.shiftRight_eq_div_pow]
theorem hiByte_toNat : (hiByte w).toNat = w.toNat / 256 % 256 := by
  simp [hiByte, BitVec.extractLsb'_toNat, Nat.shiftRight_eq_div_pow]
theorem loByte_toNat : (loByte w).toNat = w.toNat % 256 := by
  simp [loByte, BitVec.extractLsb'_toNat]

end Numbers

/-! ## The fields of the built words -/

section Fields
variable (op x y n : Nib) (nn mid hi lo : Byte) (nnn : Imm12) (w : Word)

theorem opField_wordNNN : opField (wordNNN op nnn) = op := by
  apply BitVec.eq_of_toNat_eq; rw [opField_toNat, wordNNN_toNat]; omega
theorem nnnField_wordNNN : nnnField (wordNNN op nnn) = nnn := by
  apply BitVec.eq_of_toNat_eq; rw [nnnField_toNat, wordNNN_toNat]; omega
theorem opField_wordXNN : opField (wordXNN op x nn) = op := by
  apply BitVec.eq_of_toNat_eq; rw [opField_toNat, wordXNN_toNat]; omega
theorem xField_wordXNN : xField (wordXNN op x nn) = x := by
  apply BitVec.eq_of_toNat_eq; rw [xField_toNat, wordXNN_toNat]; omega
theorem nnField_wordXNN : nnField (wordXNN op x nn) = nn := by
  apply BitVec.eq_of_toNat_eq; rw [nnField_toNat, wordXNN_toNat]; omega
theorem opField_wordXYN : opField (wordXYN op x y n) = op := by
  apply BitVec.eq_of_toNat_eq; rw [opField_toNat, wordXYN_toNat]; omega
theorem xField_wordXYN : xField (wordXYN op x y n) = x := by
  apply BitVec.eq_of_toNat_eq; rw [xField_toNat, wordXYN_toNat]; omega
theorem yField_wordXYN : yField (wordXYN op x y n) = y := by
  apply BitVec.eq_of_toNat_eq; rw [yField_toNat, wordXYN_toNat]; omega
theorem nField_wordXYN : nField (wordXYN op x y n) = n := by
  apply BitVec.eq_of_toNat_eq; rw [nField_toNat, wordXYN_toNat]; omega
theorem opField_wordMid : opField (wordMid op mid n) = op := by
  apply BitVec.eq_of_toNat_eq; rw [opField_toNat, wordMid_toNat]; omega
theorem midField_wordMid : midField (wordMid op mid n) = mid := by
  apply BitVec.eq_of_toNat_eq; rw [midField_toNat, wordMid_toNat]; omega
theorem nField_wordMid : nField (wordMid op mid n) = n := by
  apply BitVec.eq_of_toNat_eq; rw [nField_toNat, wordMid_toNat]; omega

/-- A word is its top nibble and its low twelve bits. -/
theorem wordNNN_fields : wordNNN (opField w) (nnnField w) = w := by
  apply BitVec.eq_of_toNat_eq; rw [wordNNN_toNat, opField_toNat, nnnField_toNat]; omega
/-- A word is its two upper nibbles and its low byte. -/
theorem wordXNN_fields : wordXNN (opField w) (xField w) (nnField w) = w := by
  apply BitVec.eq_of_toNat_eq; rw [wordXNN_toNat, opField_toNat, xField_toNat, nnField_toNat]; omega
/-- A word is its four nibbles. -/
theorem wordXYN_fields : wordXYN (opField w) (xField w) (yField w) (nField w) = w := by
  apply BitVec.eq_of_toNat_eq
  rw [wordXYN_toNat, opField_toNat, xField_toNat, yField_toNat, nField_toNat]; omega
/-- A word is its top nibble, its middle byte and its low nibble. -/
theorem wordMid_fields : wordMid (opField w) (midField w) (nField w) = w := by
  apply BitVec.eq_of_toNat_eq; rw [wordMid_toNat, opField_toNat, midField_toNat, nField_toNat]; omega
/-- Joining a word's two bytes gives the word back: what `placeWord` stores is what `fetch` reads. -/
@[simp] theorem joinBytes_hi_lo : joinBytes (hiByte w) (loByte w) = w := by
  apply BitVec.eq_of_toNat_eq; rw [joinBytes_toNat, hiByte_toNat, loByte_toNat]; omega

end Fields

end Sys2Proof
end

