-- ==== Sys2Proof/Laws/Memory.lean ====
section
/-!
SUPPORT. Memory: a read after a write, and that every memory operation keeps the canonical form.
-/

namespace Sys2Proof.Machine

section
variable {p : Params}

/-! ## Reads after writes; these need no canonical form -/

theorem Memory.read_erase (m : Memory) (a c : Nat) :
    Memory.read p (Memory.erase m a) c = if c = a then Memory.initial p a else Memory.read p m c := by
  induction m with
  | nil => simp only [Memory.erase, Memory.read]; split <;> simp_all
  | cons e rest ih =>
    obtain ⟨d, b⟩ := e
    simp only [Memory.erase, Memory.read]
    split_ifs <;> simp_all [Memory.read]

theorem Memory.read_insert {m : Memory} {a : Nat} (b : Byte) (c : Nat) (h : Memory.read p m a = Memory.initial p a)
    (hm : ∀ e ∈ m, e.1 ≠ a) :
    Memory.read p (Memory.insert m a b) c = if c = a then b else Memory.read p m c := by
  induction m with
  | nil => simp [Memory.insert, Memory.read]
  | cons e rest ih =>
    obtain ⟨d, x⟩ := e
    have hd : d ≠ a := hm (d, x) (by simp)
    have hrest : Memory.read p rest a = Memory.initial p a := by
      simpa [Memory.read, Ne.symm hd] using h
    have ih' := ih hrest (fun e he => hm e (by simp [he]))
    simp only [Memory.insert]
    by_cases h1 : a < d <;> simp only [h1, if_true, if_false, Memory.read]
    rw [ih']
    split_ifs <;> simp_all

theorem Memory.ne_of_mem_erase {m : Memory} {a : Nat} : ∀ e ∈ Memory.erase m a, e.1 ≠ a := by
  induction m with
  | nil => simp [Memory.erase]
  | cons e rest ih =>
    obtain ⟨d, b⟩ := e
    simp only [Memory.erase]
    split_ifs with h
    · exact ih
    · intro e he
      rcases List.mem_cons.mp he with rfl | he
      · exact fun hd => h hd.symm
      · exact ih e he

/-- A read gives the byte written at its address, and elsewhere what it gave before. -/
theorem Memory.read_write (m : Memory) (a : Nat) (b : Byte) (c : Nat) :
    Memory.read p (Memory.write p m a b) c = if c = a then b else Memory.read p m c := by
  unfold Memory.write
  split_ifs with hb hc hc
  · simp [Memory.read_erase, hc, hb]
  · simp [Memory.read_erase, hc]
  · rw [Memory.read_insert b c (by simp [Memory.read_erase]) Memory.ne_of_mem_erase]; simp [hc]
  · rw [Memory.read_insert b c (by simp [Memory.read_erase]) Memory.ne_of_mem_erase]; simp [hc, Memory.read_erase]

/-- What a run of stores leaves: the stored bytes inside the range, the old ones outside it. -/
theorem Memory.read_writeBytes (bs : List Byte) (m : Memory) (base c : Nat) :
    Memory.read p (Memory.writeBytes p m base bs) c =
      if base ≤ c ∧ c < base + bs.length then bs.getD (c - base) 0 else Memory.read p m c := by
  induction bs generalizing m base with
  | nil => simp [Memory.writeBytes]
  | cons b bs ih =>
    rw [Memory.writeBytes, ih, Memory.read_write]
    simp only [List.length_cons]
    by_cases h1 : base + 1 ≤ c ∧ c < base + 1 + bs.length
    · have h2 : base ≤ c ∧ c < base + (bs.length + 1) := by omega
      have h3 : c - base = (c - (base + 1)) + 1 := by omega
      simp [h1, h2, h3]
    · by_cases h4 : c = base
      · subst h4; simp
      · have h5 : ¬ (base ≤ c ∧ c < base + (bs.length + 1)) := by omega
        simp only [h1, h4, h5, if_false]

/-- Machines with one memory and one configuration read the same bytes. -/
theorem State.byte_congr {s t : State} (hm : t.mem = s.mem) (hc : t.config = s.config) (a : Nat) : t.byte a = s.byte a := by
  rw [State.byte, State.byte, hm, hc]

/-- Memory as the machine reads it, after a run of stores. -/
theorem State.byte_storeBytes (s : State) (base : Nat) (bs : List Byte) (a : Nat) :
    (s.storeBytes base bs).byte a = if base ≤ a ∧ a < base + bs.length then bs.getD (a - base) 0 else s.byte a :=
  Memory.read_writeBytes bs s.mem base a

/-! ## The canonical form is kept -/

theorem Memory.wfFrom_mono {lo lo' : Nat} {m : Memory} (h : Memory.wfFrom p lo m = true) (hl : lo' ≤ lo) :
    Memory.wfFrom p lo' m = true := by
  cases m with
  | nil => rfl
  | cons e rest =>
    obtain ⟨d, b⟩ := e
    simp only [Memory.wfFrom, Bool.and_eq_true, decide_eq_true_eq] at h ⊢
    exact ⟨⟨by omega, h.1.2⟩, h.2⟩

theorem Memory.wfFrom_erase {lo : Nat} {m : Memory} (a : Nat) (h : Memory.wfFrom p lo m = true) :
    Memory.wfFrom p lo (Memory.erase m a) = true := by
  induction m generalizing lo with
  | nil => rfl
  | cons e rest ih =>
    obtain ⟨d, b⟩ := e
    simp only [Memory.wfFrom, Bool.and_eq_true, decide_eq_true_eq] at h
    simp only [Memory.erase]
    split_ifs
    · exact Memory.wfFrom_mono (ih h.2) (by omega)
    · simp only [Memory.wfFrom, Bool.and_eq_true, decide_eq_true_eq]
      exact ⟨h.1, ih h.2⟩

theorem Memory.wfFrom_insert {lo a : Nat} {b : Byte} {m : Memory} (h : Memory.wfFrom p lo m = true)
    (hm : ∀ e ∈ m, e.1 ≠ a) (hl : lo ≤ a) (ha : a < Config.memSize) (hb : b ≠ Memory.initial p a) :
    Memory.wfFrom p lo (Memory.insert m a b) = true := by
  induction m generalizing lo with
  | nil => simp [Memory.insert, Memory.wfFrom, hl, ha, hb]
  | cons e rest ih =>
    obtain ⟨d, x⟩ := e
    have hd : d ≠ a := hm (d, x) (by simp)
    simp only [Memory.wfFrom, Bool.and_eq_true, decide_eq_true_eq] at h
    simp only [Memory.insert]
    split_ifs with h1
    · simp only [Memory.wfFrom, Bool.and_eq_true, decide_eq_true_eq]
      exact ⟨⟨hl, ha, hb⟩, ⟨by omega, h.1.2⟩, h.2⟩
    · simp only [Memory.wfFrom, Bool.and_eq_true, decide_eq_true_eq]
      exact ⟨h.1, ih h.2 (fun e he => hm e (by simp [he])) (by omega)⟩

/-- A store inside the address space keeps memory canonical. -/
theorem Memory.wf_write {m : Memory} {a : Nat} (b : Byte) (h : Memory.wf p m = true) (ha : a < Config.memSize) :
    Memory.wf p (Memory.write p m a b) = true := by
  unfold Memory.write
  split_ifs with hb
  · exact Memory.wfFrom_erase a h
  · exact Memory.wfFrom_insert (Memory.wfFrom_erase a h) Memory.ne_of_mem_erase (Nat.zero_le a) ha hb

/-- A run of stores inside the address space keeps memory canonical. -/
theorem Memory.wf_writeBytes {bs : List Byte} {m : Memory} {base : Nat} (h : Memory.wf p m = true)
    (hb : base + bs.length ≤ Config.memSize) : Memory.wf p (Memory.writeBytes p m base bs) = true := by
  induction bs generalizing m base with
  | nil => exact h
  | cons b bs ih =>
    rw [List.length_cons] at hb
    exact ih (Memory.wf_write b h (by omega)) (by omega)

/-- Memory after reset is canonical. -/
theorem Memory.wf_reset : Memory.wf p (CoreState.reset p).mem = true := rfl

/-! ## Equal contents of canonical memories are equal memories -/

theorem Memory.read_of_lt {lo a : Nat} {m : Memory} (h : Memory.wfFrom p lo m = true) (ha : a < lo) :
    Memory.read p m a = Memory.initial p a := by
  induction m generalizing lo with
  | nil => rfl
  | cons e rest ih =>
    obtain ⟨d, b⟩ := e
    simp only [Memory.wfFrom, Bool.and_eq_true, decide_eq_true_eq] at h
    have hd : a ≠ d := by omega
    simp only [Memory.read, hd, if_false]
    exact ih h.2 (by omega)

/-- Two canonical memories with the same bytes everywhere are the same list. -/
theorem Memory.ext_of_wf {lo : Nat} {m m' : Memory} (h : Memory.wfFrom p lo m = true) (h' : Memory.wfFrom p lo m' = true)
    (hr : ∀ a, Memory.read p m a = Memory.read p m' a) : m = m' := by
  induction m generalizing lo m' with
  | nil =>
    cases m' with
    | nil => rfl
    | cons e rest =>
      obtain ⟨d, b⟩ := e
      simp only [Memory.wfFrom, Bool.and_eq_true, decide_eq_true_eq] at h'
      have := hr d
      simp only [Memory.read, if_true] at this
      exact absurd this.symm h'.1.2.2
  | cons e rest ih =>
    obtain ⟨d, b⟩ := e
    have h0 := h
    simp only [Memory.wfFrom, Bool.and_eq_true, decide_eq_true_eq] at h
    cases m' with
    | nil =>
      have := hr d
      simp only [Memory.read, if_true] at this
      exact absurd this h.1.2.2
    | cons e' rest' =>
      obtain ⟨d', b'⟩ := e'
      have h0' := h'
      simp only [Memory.wfFrom, Bool.and_eq_true, decide_eq_true_eq] at h'
      have hdd : d = d' := by
        rcases Nat.lt_trichotomy d d' with hlt | heq | hgt
        · have e1 := hr d
          simp only [Memory.read, if_true] at e1
          rw [if_neg (by omega), Memory.read_of_lt h'.2 (by omega)] at e1
          exact absurd e1 h.1.2.2
        · exact heq
        · have e1 := hr d'
          simp only [Memory.read, if_true] at e1
          rw [if_neg (by omega), Memory.read_of_lt h.2 (by omega)] at e1
          exact absurd e1.symm h'.1.2.2
      subst hdd
      have hb : b = b' := by simpa [Memory.read] using hr d
      subst hb
      congr 1
      refine ih h.2 h'.2 (fun a => ?_)
      by_cases ha : a = d
      · subst ha
        rw [Memory.read_of_lt h.2 (Nat.lt_succ_self a), Memory.read_of_lt h'.2 (Nat.lt_succ_self a)]
      · simpa [Memory.read, ha] using hr a

end

end Sys2Proof.Machine
end

