-- ==== Sys2Proof/Laws/State.lean ====
section
/-!
SUPPORT. One lemma per field per update of `State`, each true by rfl, so that no proof unfolds a record update; and how the
register reads `State.v`, memory reads `State.byte` and key reads `State.key` see each update.
-/

namespace Sys2Proof.Machine

section Updates
variable (s : State)

@[simp] theorem State.setV_i (r : Nib) (b : Byte) : (s.setV r b).i = s.i := rfl
@[simp] theorem State.setV_pc (r : Nib) (b : Byte) : (s.setV r b).pc = s.pc := rfl
@[simp] theorem State.setV_stack (r : Nib) (b : Byte) : (s.setV r b).stack = s.stack := rfl
@[simp] theorem State.setV_sp (r : Nib) (b : Byte) : (s.setV r b).sp = s.sp := rfl
@[simp] theorem State.setV_dt (r : Nib) (b : Byte) : (s.setV r b).dt = s.dt := rfl
@[simp] theorem State.setV_st (r : Nib) (b : Byte) : (s.setV r b).st = s.st := rfl
@[simp] theorem State.setV_keys (r : Nib) (b : Byte) : (s.setV r b).keys = s.keys := rfl
@[simp] theorem State.setV_disp (r : Nib) (b : Byte) : (s.setV r b).disp = s.disp := rfl
@[simp] theorem State.setV_mem (r : Nib) (b : Byte) : (s.setV r b).mem = s.mem := rfl
@[simp] theorem State.setV_fault (r : Nib) (b : Byte) : (s.setV r b).fault = s.fault := rfl
@[simp] theorem State.setV_status (r : Nib) (b : Byte) : (s.setV r b).status = s.status := rfl
@[simp] theorem State.setV_config (r : Nib) (b : Byte) : (s.setV r b).config = s.config := rfl
@[simp] theorem State.setV_rand (r : Nib) (b : Byte) : (s.setV r b).rand = s.rand := rfl

@[simp] theorem State.setVF_i (b : Byte) : (s.setVF b).i = s.i := rfl
@[simp] theorem State.setVF_pc (b : Byte) : (s.setVF b).pc = s.pc := rfl
@[simp] theorem State.setVF_stack (b : Byte) : (s.setVF b).stack = s.stack := rfl
@[simp] theorem State.setVF_sp (b : Byte) : (s.setVF b).sp = s.sp := rfl
@[simp] theorem State.setVF_dt (b : Byte) : (s.setVF b).dt = s.dt := rfl
@[simp] theorem State.setVF_st (b : Byte) : (s.setVF b).st = s.st := rfl
@[simp] theorem State.setVF_keys (b : Byte) : (s.setVF b).keys = s.keys := rfl
@[simp] theorem State.setVF_disp (b : Byte) : (s.setVF b).disp = s.disp := rfl
@[simp] theorem State.setVF_mem (b : Byte) : (s.setVF b).mem = s.mem := rfl
@[simp] theorem State.setVF_fault (b : Byte) : (s.setVF b).fault = s.fault := rfl
@[simp] theorem State.setVF_status (b : Byte) : (s.setVF b).status = s.status := rfl
@[simp] theorem State.setVF_config (b : Byte) : (s.setVF b).config = s.config := rfl
@[simp] theorem State.setVF_rand (b : Byte) : (s.setVF b).rand = s.rand := rfl

@[simp] theorem State.setI_regs (w : Word) : (s.setI w).regs = s.regs := rfl
@[simp] theorem State.setI_i (w : Word) : (s.setI w).i = w := rfl
@[simp] theorem State.setI_pc (w : Word) : (s.setI w).pc = s.pc := rfl
@[simp] theorem State.setI_stack (w : Word) : (s.setI w).stack = s.stack := rfl
@[simp] theorem State.setI_sp (w : Word) : (s.setI w).sp = s.sp := rfl
@[simp] theorem State.setI_dt (w : Word) : (s.setI w).dt = s.dt := rfl
@[simp] theorem State.setI_st (w : Word) : (s.setI w).st = s.st := rfl
@[simp] theorem State.setI_keys (w : Word) : (s.setI w).keys = s.keys := rfl
@[simp] theorem State.setI_disp (w : Word) : (s.setI w).disp = s.disp := rfl
@[simp] theorem State.setI_mem (w : Word) : (s.setI w).mem = s.mem := rfl
@[simp] theorem State.setI_fault (w : Word) : (s.setI w).fault = s.fault := rfl
@[simp] theorem State.setI_status (w : Word) : (s.setI w).status = s.status := rfl
@[simp] theorem State.setI_config (w : Word) : (s.setI w).config = s.config := rfl
@[simp] theorem State.setI_rand (w : Word) : (s.setI w).rand = s.rand := rfl

@[simp] theorem State.setPc_regs (w : Word) : (s.setPc w).regs = s.regs := rfl
@[simp] theorem State.setPc_i (w : Word) : (s.setPc w).i = s.i := rfl
@[simp] theorem State.setPc_pc (w : Word) : (s.setPc w).pc = w := rfl
@[simp] theorem State.setPc_stack (w : Word) : (s.setPc w).stack = s.stack := rfl
@[simp] theorem State.setPc_sp (w : Word) : (s.setPc w).sp = s.sp := rfl
@[simp] theorem State.setPc_dt (w : Word) : (s.setPc w).dt = s.dt := rfl
@[simp] theorem State.setPc_st (w : Word) : (s.setPc w).st = s.st := rfl
@[simp] theorem State.setPc_keys (w : Word) : (s.setPc w).keys = s.keys := rfl
@[simp] theorem State.setPc_disp (w : Word) : (s.setPc w).disp = s.disp := rfl
@[simp] theorem State.setPc_mem (w : Word) : (s.setPc w).mem = s.mem := rfl
@[simp] theorem State.setPc_fault (w : Word) : (s.setPc w).fault = s.fault := rfl
@[simp] theorem State.setPc_status (w : Word) : (s.setPc w).status = s.status := rfl
@[simp] theorem State.setPc_config (w : Word) : (s.setPc w).config = s.config := rfl
@[simp] theorem State.setPc_rand (w : Word) : (s.setPc w).rand = s.rand := rfl

@[simp] theorem State.advance_regs : (s.advance).regs = s.regs := rfl
@[simp] theorem State.advance_i : (s.advance).i = s.i := rfl
@[simp] theorem State.advance_pc : (s.advance).pc = s.pc + 2 := rfl
@[simp] theorem State.advance_stack : (s.advance).stack = s.stack := rfl
@[simp] theorem State.advance_sp : (s.advance).sp = s.sp := rfl
@[simp] theorem State.advance_dt : (s.advance).dt = s.dt := rfl
@[simp] theorem State.advance_st : (s.advance).st = s.st := rfl
@[simp] theorem State.advance_keys : (s.advance).keys = s.keys := rfl
@[simp] theorem State.advance_disp : (s.advance).disp = s.disp := rfl
@[simp] theorem State.advance_mem : (s.advance).mem = s.mem := rfl
@[simp] theorem State.advance_fault : (s.advance).fault = s.fault := rfl
@[simp] theorem State.advance_status : (s.advance).status = s.status := rfl
@[simp] theorem State.advance_config : (s.advance).config = s.config := rfl
@[simp] theorem State.advance_rand : (s.advance).rand = s.rand := rfl

@[simp] theorem State.setDt_regs (b : Byte) : (s.setDt b).regs = s.regs := rfl
@[simp] theorem State.setDt_i (b : Byte) : (s.setDt b).i = s.i := rfl
@[simp] theorem State.setDt_pc (b : Byte) : (s.setDt b).pc = s.pc := rfl
@[simp] theorem State.setDt_stack (b : Byte) : (s.setDt b).stack = s.stack := rfl
@[simp] theorem State.setDt_sp (b : Byte) : (s.setDt b).sp = s.sp := rfl
@[simp] theorem State.setDt_dt (b : Byte) : (s.setDt b).dt = b := rfl
@[simp] theorem State.setDt_st (b : Byte) : (s.setDt b).st = s.st := rfl
@[simp] theorem State.setDt_keys (b : Byte) : (s.setDt b).keys = s.keys := rfl
@[simp] theorem State.setDt_disp (b : Byte) : (s.setDt b).disp = s.disp := rfl
@[simp] theorem State.setDt_mem (b : Byte) : (s.setDt b).mem = s.mem := rfl
@[simp] theorem State.setDt_fault (b : Byte) : (s.setDt b).fault = s.fault := rfl
@[simp] theorem State.setDt_status (b : Byte) : (s.setDt b).status = s.status := rfl
@[simp] theorem State.setDt_config (b : Byte) : (s.setDt b).config = s.config := rfl
@[simp] theorem State.setDt_rand (b : Byte) : (s.setDt b).rand = s.rand := rfl

@[simp] theorem State.setSt_regs (b : Byte) : (s.setSt b).regs = s.regs := rfl
@[simp] theorem State.setSt_i (b : Byte) : (s.setSt b).i = s.i := rfl
@[simp] theorem State.setSt_pc (b : Byte) : (s.setSt b).pc = s.pc := rfl
@[simp] theorem State.setSt_stack (b : Byte) : (s.setSt b).stack = s.stack := rfl
@[simp] theorem State.setSt_sp (b : Byte) : (s.setSt b).sp = s.sp := rfl
@[simp] theorem State.setSt_dt (b : Byte) : (s.setSt b).dt = s.dt := rfl
@[simp] theorem State.setSt_st (b : Byte) : (s.setSt b).st = b := rfl
@[simp] theorem State.setSt_keys (b : Byte) : (s.setSt b).keys = s.keys := rfl
@[simp] theorem State.setSt_disp (b : Byte) : (s.setSt b).disp = s.disp := rfl
@[simp] theorem State.setSt_mem (b : Byte) : (s.setSt b).mem = s.mem := rfl
@[simp] theorem State.setSt_fault (b : Byte) : (s.setSt b).fault = s.fault := rfl
@[simp] theorem State.setSt_status (b : Byte) : (s.setSt b).status = s.status := rfl
@[simp] theorem State.setSt_config (b : Byte) : (s.setSt b).config = s.config := rfl
@[simp] theorem State.setSt_rand (b : Byte) : (s.setSt b).rand = s.rand := rfl

@[simp] theorem State.setDisp_regs (d : Display) : (s.setDisp d).regs = s.regs := rfl
@[simp] theorem State.setDisp_i (d : Display) : (s.setDisp d).i = s.i := rfl
@[simp] theorem State.setDisp_pc (d : Display) : (s.setDisp d).pc = s.pc := rfl
@[simp] theorem State.setDisp_stack (d : Display) : (s.setDisp d).stack = s.stack := rfl
@[simp] theorem State.setDisp_sp (d : Display) : (s.setDisp d).sp = s.sp := rfl
@[simp] theorem State.setDisp_dt (d : Display) : (s.setDisp d).dt = s.dt := rfl
@[simp] theorem State.setDisp_st (d : Display) : (s.setDisp d).st = s.st := rfl
@[simp] theorem State.setDisp_keys (d : Display) : (s.setDisp d).keys = s.keys := rfl
@[simp] theorem State.setDisp_disp (d : Display) : (s.setDisp d).disp = d := rfl
@[simp] theorem State.setDisp_mem (d : Display) : (s.setDisp d).mem = s.mem := rfl
@[simp] theorem State.setDisp_fault (d : Display) : (s.setDisp d).fault = s.fault := rfl
@[simp] theorem State.setDisp_status (d : Display) : (s.setDisp d).status = s.status := rfl
@[simp] theorem State.setDisp_config (d : Display) : (s.setDisp d).config = s.config := rfl
@[simp] theorem State.setDisp_rand (d : Display) : (s.setDisp d).rand = s.rand := rfl

@[simp] theorem State.storeBytes_regs (base : Nat) (bs : List Byte) : (s.storeBytes base bs).regs = s.regs := rfl
@[simp] theorem State.storeBytes_i (base : Nat) (bs : List Byte) : (s.storeBytes base bs).i = s.i := rfl
@[simp] theorem State.storeBytes_pc (base : Nat) (bs : List Byte) : (s.storeBytes base bs).pc = s.pc := rfl
@[simp] theorem State.storeBytes_stack (base : Nat) (bs : List Byte) : (s.storeBytes base bs).stack = s.stack := rfl
@[simp] theorem State.storeBytes_sp (base : Nat) (bs : List Byte) : (s.storeBytes base bs).sp = s.sp := rfl
@[simp] theorem State.storeBytes_dt (base : Nat) (bs : List Byte) : (s.storeBytes base bs).dt = s.dt := rfl
@[simp] theorem State.storeBytes_st (base : Nat) (bs : List Byte) : (s.storeBytes base bs).st = s.st := rfl
@[simp] theorem State.storeBytes_keys (base : Nat) (bs : List Byte) : (s.storeBytes base bs).keys = s.keys := rfl
@[simp] theorem State.storeBytes_disp (base : Nat) (bs : List Byte) : (s.storeBytes base bs).disp = s.disp := rfl
@[simp] theorem State.storeBytes_mem (base : Nat) (bs : List Byte) : (s.storeBytes base bs).mem = Memory.writeBytes s.config s.mem base bs := rfl
@[simp] theorem State.storeBytes_fault (base : Nat) (bs : List Byte) : (s.storeBytes base bs).fault = s.fault := rfl
@[simp] theorem State.storeBytes_status (base : Nat) (bs : List Byte) : (s.storeBytes base bs).status = s.status := rfl
@[simp] theorem State.storeBytes_config (base : Nat) (bs : List Byte) : (s.storeBytes base bs).config = s.config := rfl
@[simp] theorem State.storeBytes_rand (base : Nat) (bs : List Byte) : (s.storeBytes base bs).rand = s.rand := rfl

@[simp] theorem State.setKey_regs (k : Nib) (b : Bool) : (s.setKey k b).regs = s.regs := rfl
@[simp] theorem State.setKey_i (k : Nib) (b : Bool) : (s.setKey k b).i = s.i := rfl
@[simp] theorem State.setKey_pc (k : Nib) (b : Bool) : (s.setKey k b).pc = s.pc := rfl
@[simp] theorem State.setKey_stack (k : Nib) (b : Bool) : (s.setKey k b).stack = s.stack := rfl
@[simp] theorem State.setKey_sp (k : Nib) (b : Bool) : (s.setKey k b).sp = s.sp := rfl
@[simp] theorem State.setKey_dt (k : Nib) (b : Bool) : (s.setKey k b).dt = s.dt := rfl
@[simp] theorem State.setKey_st (k : Nib) (b : Bool) : (s.setKey k b).st = s.st := rfl
@[simp] theorem State.setKey_disp (k : Nib) (b : Bool) : (s.setKey k b).disp = s.disp := rfl
@[simp] theorem State.setKey_mem (k : Nib) (b : Bool) : (s.setKey k b).mem = s.mem := rfl
@[simp] theorem State.setKey_fault (k : Nib) (b : Bool) : (s.setKey k b).fault = s.fault := rfl
@[simp] theorem State.setKey_status (k : Nib) (b : Bool) : (s.setKey k b).status = s.status := rfl
@[simp] theorem State.setKey_config (k : Nib) (b : Bool) : (s.setKey k b).config = s.config := rfl
@[simp] theorem State.setKey_rand (k : Nib) (b : Bool) : (s.setKey k b).rand = s.rand := rfl

@[simp] theorem State.consumeRand_regs : (s.consumeRand).regs = s.regs := rfl
@[simp] theorem State.consumeRand_i : (s.consumeRand).i = s.i := rfl
@[simp] theorem State.consumeRand_pc : (s.consumeRand).pc = s.pc := rfl
@[simp] theorem State.consumeRand_stack : (s.consumeRand).stack = s.stack := rfl
@[simp] theorem State.consumeRand_sp : (s.consumeRand).sp = s.sp := rfl
@[simp] theorem State.consumeRand_dt : (s.consumeRand).dt = s.dt := rfl
@[simp] theorem State.consumeRand_st : (s.consumeRand).st = s.st := rfl
@[simp] theorem State.consumeRand_keys : (s.consumeRand).keys = s.keys := rfl
@[simp] theorem State.consumeRand_disp : (s.consumeRand).disp = s.disp := rfl
@[simp] theorem State.consumeRand_mem : (s.consumeRand).mem = s.mem := rfl
@[simp] theorem State.consumeRand_fault : (s.consumeRand).fault = s.fault := rfl
@[simp] theorem State.consumeRand_status : (s.consumeRand).status = s.status := rfl
@[simp] theorem State.consumeRand_config : (s.consumeRand).config = s.config := rfl
@[simp] theorem State.consumeRand_rand : (s.consumeRand).rand = { queue := s.rand.queue.tail, drawn := s.rand.drawn + 1 } := rfl

@[simp] theorem State.tickTimers_regs : (s.tickTimers).regs = s.regs := rfl
@[simp] theorem State.tickTimers_i : (s.tickTimers).i = s.i := rfl
@[simp] theorem State.tickTimers_pc : (s.tickTimers).pc = s.pc := rfl
@[simp] theorem State.tickTimers_stack : (s.tickTimers).stack = s.stack := rfl
@[simp] theorem State.tickTimers_sp : (s.tickTimers).sp = s.sp := rfl
@[simp] theorem State.tickTimers_dt : (s.tickTimers).dt = tick s.dt := rfl
@[simp] theorem State.tickTimers_st : (s.tickTimers).st = tick s.st := rfl
@[simp] theorem State.tickTimers_keys : (s.tickTimers).keys = s.keys := rfl
@[simp] theorem State.tickTimers_disp : (s.tickTimers).disp = s.disp := rfl
@[simp] theorem State.tickTimers_mem : (s.tickTimers).mem = s.mem := rfl
@[simp] theorem State.tickTimers_fault : (s.tickTimers).fault = s.fault := rfl
@[simp] theorem State.tickTimers_status : (s.tickTimers).status = s.status := rfl
@[simp] theorem State.tickTimers_config : (s.tickTimers).config = s.config := rfl
@[simp] theorem State.tickTimers_rand : (s.tickTimers).rand = s.rand := rfl

@[simp] theorem State.flagThenResult_i (f : Byte) (x : Nib) (g : State → Byte) : (s.flagThenResult f x g).i = s.i := rfl
@[simp] theorem State.flagThenResult_pc (f : Byte) (x : Nib) (g : State → Byte) : (s.flagThenResult f x g).pc = s.pc := rfl
@[simp] theorem State.flagThenResult_stack (f : Byte) (x : Nib) (g : State → Byte) : (s.flagThenResult f x g).stack = s.stack := rfl
@[simp] theorem State.flagThenResult_sp (f : Byte) (x : Nib) (g : State → Byte) : (s.flagThenResult f x g).sp = s.sp := rfl
@[simp] theorem State.flagThenResult_dt (f : Byte) (x : Nib) (g : State → Byte) : (s.flagThenResult f x g).dt = s.dt := rfl
@[simp] theorem State.flagThenResult_st (f : Byte) (x : Nib) (g : State → Byte) : (s.flagThenResult f x g).st = s.st := rfl
@[simp] theorem State.flagThenResult_keys (f : Byte) (x : Nib) (g : State → Byte) : (s.flagThenResult f x g).keys = s.keys := rfl
@[simp] theorem State.flagThenResult_disp (f : Byte) (x : Nib) (g : State → Byte) : (s.flagThenResult f x g).disp = s.disp := rfl
@[simp] theorem State.flagThenResult_mem (f : Byte) (x : Nib) (g : State → Byte) : (s.flagThenResult f x g).mem = s.mem := rfl
@[simp] theorem State.flagThenResult_fault (f : Byte) (x : Nib) (g : State → Byte) : (s.flagThenResult f x g).fault = s.fault := rfl
@[simp] theorem State.flagThenResult_status (f : Byte) (x : Nib) (g : State → Byte) : (s.flagThenResult f x g).status = s.status := rfl
@[simp] theorem State.flagThenResult_config (f : Byte) (x : Nib) (g : State → Byte) : (s.flagThenResult f x g).config = s.config := rfl
@[simp] theorem State.flagThenResult_rand (f : Byte) (x : Nib) (g : State → Byte) : (s.flagThenResult f x g).rand = s.rand := rfl

@[simp] theorem State.presentRand_regs (bs : List Byte) : (s.presentRand bs).regs = s.regs := rfl
@[simp] theorem State.presentRand_i (bs : List Byte) : (s.presentRand bs).i = s.i := rfl
@[simp] theorem State.presentRand_pc (bs : List Byte) : (s.presentRand bs).pc = s.pc := rfl
@[simp] theorem State.presentRand_stack (bs : List Byte) : (s.presentRand bs).stack = s.stack := rfl
@[simp] theorem State.presentRand_sp (bs : List Byte) : (s.presentRand bs).sp = s.sp := rfl
@[simp] theorem State.presentRand_dt (bs : List Byte) : (s.presentRand bs).dt = s.dt := rfl
@[simp] theorem State.presentRand_st (bs : List Byte) : (s.presentRand bs).st = s.st := rfl
@[simp] theorem State.presentRand_keys (bs : List Byte) : (s.presentRand bs).keys = s.keys := rfl
@[simp] theorem State.presentRand_disp (bs : List Byte) : (s.presentRand bs).disp = s.disp := rfl
@[simp] theorem State.presentRand_mem (bs : List Byte) : (s.presentRand bs).mem = s.mem := rfl
@[simp] theorem State.presentRand_fault (bs : List Byte) : (s.presentRand bs).fault = s.fault := rfl
@[simp] theorem State.presentRand_status (bs : List Byte) : (s.presentRand bs).status = s.status := rfl
@[simp] theorem State.presentRand_config (bs : List Byte) : (s.presentRand bs).config = s.config := rfl
@[simp] theorem State.presentRand_rand (bs : List Byte) : (s.presentRand bs).rand = { s.rand with queue := s.rand.queue ++ bs } := rfl

@[simp] theorem State.skipIf_regs (c : Bool) : (s.skipIf c).regs = s.regs := by cases c <;> rfl
@[simp] theorem State.skipIf_i (c : Bool) : (s.skipIf c).i = s.i := by cases c <;> rfl
@[simp] theorem State.skipIf_pc (c : Bool) : (s.skipIf c).pc = if c then s.pc + 2 else s.pc := by cases c <;> rfl
@[simp] theorem State.skipIf_stack (c : Bool) : (s.skipIf c).stack = s.stack := by cases c <;> rfl
@[simp] theorem State.skipIf_sp (c : Bool) : (s.skipIf c).sp = s.sp := by cases c <;> rfl
@[simp] theorem State.skipIf_dt (c : Bool) : (s.skipIf c).dt = s.dt := by cases c <;> rfl
@[simp] theorem State.skipIf_st (c : Bool) : (s.skipIf c).st = s.st := by cases c <;> rfl
@[simp] theorem State.skipIf_keys (c : Bool) : (s.skipIf c).keys = s.keys := by cases c <;> rfl
@[simp] theorem State.skipIf_disp (c : Bool) : (s.skipIf c).disp = s.disp := by cases c <;> rfl
@[simp] theorem State.skipIf_mem (c : Bool) : (s.skipIf c).mem = s.mem := by cases c <;> rfl
@[simp] theorem State.skipIf_fault (c : Bool) : (s.skipIf c).fault = s.fault := by cases c <;> rfl
@[simp] theorem State.skipIf_status (c : Bool) : (s.skipIf c).status = s.status := by cases c <;> rfl
@[simp] theorem State.skipIf_config (c : Bool) : (s.skipIf c).config = s.config := by cases c <;> rfl
@[simp] theorem State.skipIf_rand (c : Bool) : (s.skipIf c).rand = s.rand := by cases c <;> rfl

/-! ### Register reads -/

@[simp] theorem State.setI_v (w : Word) (q : Nib) : (s.setI w).v q = s.v q := rfl
@[simp] theorem State.setPc_v (w : Word) (q : Nib) : (s.setPc w).v q = s.v q := rfl
@[simp] theorem State.advance_v (q : Nib) : (s.advance).v q = s.v q := rfl
@[simp] theorem State.setDt_v (b : Byte) (q : Nib) : (s.setDt b).v q = s.v q := rfl
@[simp] theorem State.setSt_v (b : Byte) (q : Nib) : (s.setSt b).v q = s.v q := rfl
@[simp] theorem State.setDisp_v (d : Display) (q : Nib) : (s.setDisp d).v q = s.v q := rfl
@[simp] theorem State.storeBytes_v (base : Nat) (bs : List Byte) (q : Nib) : (s.storeBytes base bs).v q = s.v q := rfl
@[simp] theorem State.setKey_v (k : Nib) (b : Bool) (q : Nib) : (s.setKey k b).v q = s.v q := rfl
@[simp] theorem State.consumeRand_v (q : Nib) : (s.consumeRand).v q = s.v q := rfl
@[simp] theorem State.tickTimers_v (q : Nib) : (s.tickTimers).v q = s.v q := rfl
@[simp] theorem State.presentRand_v (bs : List Byte) (q : Nib) : (s.presentRand bs).v q = s.v q := rfl
@[simp] theorem State.skipIf_v (c : Bool) (q : Nib) : (s.skipIf c).v q = s.v q := by cases c <;> rfl

/-- A register read after a register write. -/
theorem State.v_setV (r : Nib) (b : Byte) (q : Nib) : (s.setV r b).v q = if q = r then b else s.v q := by
  simp only [State.v, State.setV, Vector.getElem_set, eq_comm (a := r.toNat), BitVec.toNat_inj]

@[simp] theorem State.v_setV_self (r : Nib) (b : Byte) : (s.setV r b).v r = b := by simp [State.v_setV]

theorem State.v_setV_of_ne {r q : Nib} (b : Byte) (h : q ≠ r) : (s.setV r b).v q = s.v q := by simp [State.v_setV, h]

/-- A register read after a flag write. -/
theorem State.v_setVF (b : Byte) (q : Nib) : (s.setVF b).v q = if q = 0xF then b else s.v q := s.v_setV 0xF b q

/-- A register read after a flag write and a result write: the result wins where both name one register (spec R92). -/
theorem State.v_flagThenResult (f : Byte) (x : Nib) (g : State → Byte) (q : Nib) :
    (s.flagThenResult f x g).v q = if q = x then g (s.setVF f) else if q = 0xF then f else s.v q := by
  rw [State.flagThenResult, State.v_setV, State.v_setVF]

/-! ### Memory reads -/

@[simp] theorem State.setV_byte (r : Nib) (b : Byte) (a : Nat) : (s.setV r b).byte a = s.byte a := rfl
@[simp] theorem State.setVF_byte (b : Byte) (a : Nat) : (s.setVF b).byte a = s.byte a := rfl
@[simp] theorem State.setI_byte (w : Word) (a : Nat) : (s.setI w).byte a = s.byte a := rfl
@[simp] theorem State.setPc_byte (w : Word) (a : Nat) : (s.setPc w).byte a = s.byte a := rfl
@[simp] theorem State.advance_byte (a : Nat) : (s.advance).byte a = s.byte a := rfl
@[simp] theorem State.setDt_byte (b : Byte) (a : Nat) : (s.setDt b).byte a = s.byte a := rfl
@[simp] theorem State.setSt_byte (b : Byte) (a : Nat) : (s.setSt b).byte a = s.byte a := rfl
@[simp] theorem State.setDisp_byte (d : Display) (a : Nat) : (s.setDisp d).byte a = s.byte a := rfl
@[simp] theorem State.setKey_byte (k : Nib) (b : Bool) (a : Nat) : (s.setKey k b).byte a = s.byte a := rfl
@[simp] theorem State.consumeRand_byte (a : Nat) : (s.consumeRand).byte a = s.byte a := rfl
@[simp] theorem State.tickTimers_byte (a : Nat) : (s.tickTimers).byte a = s.byte a := rfl
@[simp] theorem State.flagThenResult_byte (f : Byte) (x : Nib) (g : State → Byte) (a : Nat) : (s.flagThenResult f x g).byte a = s.byte a := rfl
@[simp] theorem State.presentRand_byte (bs : List Byte) (a : Nat) : (s.presentRand bs).byte a = s.byte a := rfl
@[simp] theorem State.skipIf_byte (c : Bool) (a : Nat) : (s.skipIf c).byte a = s.byte a := by cases c <;> rfl

/-! ### Key reads -/

/-- A key read after a press or release. -/
theorem State.key_setKey (k : Nib) (b : Bool) (q : Nib) : (s.setKey k b).key q = if q = k then b else s.key q := by
  simp only [State.key, State.setKey, Vector.getElem_set, eq_comm (a := k.toNat), BitVec.toNat_inj]

end Updates

end Sys2Proof.Machine
end

