-- ==== Sys2Proof/Laws/Ops.lean ====
section
/-!
SUPPORT. One lemma per shared operation that says what it can do; proofs cite these instead of unfolding the operation.
-/

namespace Sys2Proof.Machine

/-! ## Ends of a cycle -/

/-- A timer's tick, in the integers: one down and not below 0 (R66). -/
theorem tick_toNat (b : Byte) : (tick b).toNat = b.toNat - 1 := by
  unfold tick
  split_ifs with h
  · subst h; rfl
  · have : b.toNat ≠ 0 := fun h0 => h (BitVec.eq_of_toNat_eq h0)
    have := b.isLt
    rw [BitVec.toNat_sub]
    simp
    omega

/-- The state a completed cycle ends in, from the state `u` its handler left. -/
theorem complete_eq (u : State) : complete u = .next { u.tickTimers with status := 0 } := rfl

/-- Taking a fault is the spec's fault entry (R65, R135). -/
theorem takeFault_eq (s : State) (k : FaultKind) (word addr : Word) :
    takeFault s k word addr = .next (faulted s k.code word addr) := rfl

theorem lowestOutOfRange_eq (a : Word) : lowestOutOfRange a = outOfRangeAddr a := by
  apply BitVec.eq_of_toNat_eq
  have := a.isLt
  unfold lowestOutOfRange outOfRangeAddr
  split_ifs with h <;> simp [BitVec.toNat_ofNat] <;> omega

theorem indexFault_eq (s : State) (word : Word) :
    indexFault s word = .next (faulted s 2 word (outOfRangeAddr s.i)) := by
  rw [indexFault, takeFault_eq, lowestOutOfRange_eq]; rfl

theorem fetchFault_eq (s : State) : fetchFault s = .next (faulted s 2 0 (outOfRangeAddr s.pc)) := by
  rw [fetchFault, takeFault_eq, lowestOutOfRange_eq]; rfl

theorem invalidOpcodeFault_eq (s : State) (w : Word) : invalidOpcodeFault s w = .next (faulted s 1 w 0) := rfl

/-- A completed cycle writes only the parts its handler wrote: to show it of `complete u` it is enough to compare `u` with
the advanced start state part by part. -/
theorem complete_writing (written : List Part) (s u : State) (hk : u.keys = s.keys) (hf : u.fault = s.fault)
    (hc : u.config = s.config)
    (hp : ∀ p, p ∉ written → match p with
      | .regs => ∀ r, u.v r = s.v r
      | .index => u.i = s.i
      | .pc => u.pc = s.pc + 2
      | .stack => u.stack = s.stack ∧ u.sp = s.sp
      | .display => u.disp = s.disp
      | .memory => ∀ a, u.byte a = s.byte a
      | .timers => u.dt = s.dt ∧ u.st = s.st
      | .rand => u.rand = s.rand) :
    CompletesWriting written s { u.tickTimers with status := 0 } := by
  refine ⟨rfl, hk, hf, hc, fun p hn => ?_⟩
  have h := hp p hn
  cases p
  case timers => exact ⟨by rw [← h.1]; exact tick_toNat u.dt, by rw [← h.2]; exact tick_toNat u.st⟩
  all_goals exact h

/-! ## Operands -/

theorem zextImm_eq (nnn : Imm12) : zextImm nnn = BitVec.ofNat 16 nnn.toNat := by
  apply BitVec.eq_of_toNat_eq; simp [zextImm]

theorem zextByte_eq (b : Byte) : zextByte b = BitVec.ofNat 16 b.toNat := by
  apply BitVec.eq_of_toNat_eq; simp [zextByte]

/-- When an access through I is inside memory (R36). -/
theorem inMemory_iff (base : Word) (n : Nat) : inMemory base n = true ↔ n = 0 ∨ base.toNat + n ≤ 4096 :=
  decide_eq_true_iff

theorem skipIf_pc_eq (s : State) (c : Bool) : (s.advance.skipIf c).pc = if c then s.pc + 4 else s.pc + 2 := by
  cases c
  · rfl
  · simp only [State.skipIf_pc, State.advance_pc, if_true, BitVec.add_assoc]; rfl

theorem keyCode_of_le {b : Byte} (h : b.toNat ≤ 15) : keyCode b = some (b.setWidth 4) := if_pos h
theorem keyCode_of_gt {b : Byte} (h : 15 < b.toNat) : keyCode b = none := if_neg (by omega)

/-- The key a legal code names (R111). -/
theorem key_of_code {s : State} {b : Byte} (h : b.toNat ≤ 15) :
    s.key (b.setWidth 4) = s.keys.toList.getD b.toNat false := by
  have h1 : (b.setWidth 4).toNat = b.toNat := by simp; omega
  have h2 : b.toNat < s.keys.toList.length := by simp; omega
  simp only [State.key, h1]
  rw [List.getD_eq_getElem _ _ h2]; simp

/-! ## Stack -/

theorem State.push?_of_lt (s : State) (w : Word) (h : s.sp.val < 16) :
    s.push? w = some { s with stack := s.stack.set s.sp.val w h, sp := ⟨s.sp.val + 1, by omega⟩ } := dif_pos h
theorem State.push?_full (s : State) (w : Word) (h : s.sp = 16) : s.push? w = none := dif_neg (by rw [h]; decide)
theorem State.pop?_empty (s : State) (h : s.sp = 0) : s.pop? = none := dif_pos (by rw [h]; rfl)
theorem State.pop?_of_pos (s : State) (h : s.sp.val ≠ 0) :
    s.pop? = some (s.stack[s.sp.val - 1]'(by omega), { s with sp := ⟨s.sp.val - 1, by omega⟩ }) := dif_neg h

/-! ## Keys -/

/-- The least pressed key (R114). -/
theorem State.firstKey_some {s : State} {k : Nib} (h : s.firstKey = some k) :
    s.key k = true ∧ ∀ j : Nib, j.toNat < k.toNat → s.key j = false := by
  unfold State.firstKey at h
  rw [List.find?_eq_some_iff_append] at h
  obtain ⟨hk, as, bs, hl, hn⟩ := h
  refine ⟨hk, fun j hj => ?_⟩
  have hlen : ∀ (n : Nat) (h : n < 16), ((List.range 16).map (BitVec.ofNat 4))[n]'(by simpa using h) = BitVec.ofNat 4 n := by
    intro n h; simp
  have hmem : j ∈ as := by
    have hal : as.length < 16 := by
      have := congrArg List.length hl; simp at this; omega
    have hka : k = BitVec.ofNat 4 as.length := by
      have := hlen as.length hal
      simp only [hl] at this
      exact (by simpa using this)
    have hja : j.toNat < as.length := by
      rw [hka] at hj; simp at hj; omega
    have hjj := hlen j.toNat (by omega)
    simp only [hl] at hjj
    rw [List.getElem_append_left hja] at hjj
    have : j = as[j.toNat] := by rw [hjj]; simp
    rw [this]; exact List.getElem_mem hja
  simpa using hn j hmem

/-- No key is found when none is pressed. -/
theorem State.firstKey_none {s : State} : s.firstKey = none ↔ ∀ k : Nib, s.key k = false := by
  unfold State.firstKey
  rw [List.find?_eq_none]
  constructor
  · intro h k
    have := h k (by
      rw [List.mem_map]
      exact ⟨k.toNat, by have := k.isLt; simp; omega, by simp⟩)
    simpa using this
  · intro h k _
    simp [h k]

/-! ## Register blocks -/

@[simp] theorem State.regBlock_length (s : State) (n : Nat) : (s.regBlock n).length = n := by simp [State.regBlock]

/-- Byte `k` of a register block is V[k] (R101). -/
theorem State.regBlock_getD (s : State) {n k : Nat} (h : k < n) : (s.regBlock n).getD k 0 = s.v (BitVec.ofNat 4 k) := by
  rw [List.getD_eq_getElem _ _ (by simpa using h)]
  simp [State.regBlock]

/-- What a block load leaves in the registers (R102). -/
theorem State.v_loadRegs (s : State) (base n : Nat) (hn : n ≤ 16) (r : Nib) :
    (s.loadRegs base n).v r = if r.toNat < n then s.byte (base + r.toNat) else s.v r := by
  induction n with
  | zero => rfl
  | succ k ih =>
    rw [State.loadRegs, State.v_setV, ih (by omega)]
    by_cases h : r = BitVec.ofNat 4 k
    · have hk : r.toNat = k := by rw [h]; simp; omega
      simp [h]
      rw [if_pos (by omega), Nat.mod_eq_of_lt (by omega)]
    · have hk : r.toNat ≠ k := fun hk => h (by rw [← hk]; simp)
      simp only [h, if_false]
      by_cases h2 : r.toNat < k
      · rw [if_pos h2, if_pos (by omega)]
      · rw [if_neg h2, if_neg (by omega)]

/-- A block load changes nothing but registers. -/
theorem State.loadRegs_eq (s : State) (base n : Nat) : s.loadRegs base n = { s with regs := (s.loadRegs base n).regs } := by
  induction n with
  | zero => rfl
  | succ k ih => rw [State.loadRegs, State.setV, ih]

/-! ## Fetch -/

/-- A fetch inside memory reads the word at PC (R61). -/
theorem State.fetch_eq {s : State} (h : s.pc.toNat ≤ 4094) : s.fetch = some (wordAtPc s) := by
  rw [State.fetch, if_pos h]
  congr 1
  apply BitVec.eq_of_toNat_eq
  rw [joinBytes_toNat, wordAtPc, BitVec.toNat_ofNat]
  have h1 := (s.byte s.pc.toNat).isLt
  have h2 := (s.byte (s.pc.toNat + 1)).isLt
  omega

theorem State.fetch_none {s : State} (h : 4094 < s.pc.toNat) : s.fetch = none := if_neg (by omega)

/-- What `withFetchWord` places is what the next fetch reads. -/
theorem State.fetch_withFetchWord {s : State} (h : s.pc.toNat ≤ 4094) (nbits w : Nat) :
    (s.withFetchWord nbits w).fetch = some (tableWord nbits w) := by
  have e : s.withFetchWord nbits w =
      s.storeBytes s.pc.toNat [hiByte (tableWord nbits w), loByte (tableWord nbits w)] := by
    rw [State.withFetchWord, State.placeWord, if_pos h]
  rw [e, State.fetch, State.storeBytes_pc, if_pos h]
  simp [State.byte_storeBytes]

end Sys2Proof.Machine
end

