-- ==== Sys2Proof/Laws/Display.lean ====
section
/-!
SUPPORT. What a draw does, cell by cell: a sprite is a list of distinct target cells, each plotted once (spec R107).
-/

namespace Sys2Proof.Machine

@[simp] theorem Display.cell_blank (x : Fin 64) (y : Fin 32) : Display.cell Display.blank x y = false := by
  simp [Display.cell, Display.blank]

/-- A flip inverts its cell and no other. -/
theorem Display.cell_flip (d : Display) (x cx : Fin 64) (y cy : Fin 32) :
    Display.cell (Display.flip d x y) cx cy =
      if cx = x ∧ cy = y then !Display.cell d x y else Display.cell d cx cy := by
  unfold Display.cell Display.flip
  by_cases hy : cy = y
  · subst hy
    by_cases hx : cx = x
    · subst hx; simp
    · have : x.val ≠ cx.val := fun h => hx (Fin.ext h.symm)
      simp [hx, this]
  · have : y.val ≠ cy.val := fun h => hy (Fin.ext h.symm)
    simp [hy, this]

/-- Displays with equal cells are equal. -/
theorem Display.ext {d d' : Display} (h : ∀ x y, Display.cell d x y = Display.cell d' x y) : d = d' := by
  apply Vector.ext; intro y hy
  apply Vector.ext; intro x hx
  exact h ⟨x, hx⟩ ⟨y, hy⟩

/-- Plots every cell of a list, in order. -/
def Canvas.plotAll (c : Canvas) (l : List (Fin 64 × Fin 32)) : Canvas := l.foldl (fun c p => c.plot p.1 p.2) c

/-- The targets of one sprite row. -/
def rowTargets (b : Byte) (ox ty : Nat) : List (Fin 64 × Fin 32) :=
  ((List.range 8).filter (fun col => b.getLsbD (7 - col))).map (fun col => (Fin.ofNat 64 (ox + col), Fin.ofNat 32 ty))

/-- The targets of a sprite. -/
def spriteTargets (rows : Nat → Byte) (ox oy n : Nat) : List (Fin 64 × Fin 32) :=
  (List.range n).flatMap (fun row => rowTargets (rows row) ox (oy + row))

theorem Canvas.drawRow_eq (c : Canvas) (b : Byte) (ox ty : Nat) :
    c.drawRow b ox ty = c.plotAll (rowTargets b ox ty) := by
  rw [Canvas.drawRow, Canvas.plotAll, rowTargets, List.foldl_map, List.foldl_filter]

theorem Canvas.drawSprite_eq (c : Canvas) (rows : Nat → Byte) (ox oy n : Nat) :
    c.drawSprite rows ox oy n = c.plotAll (spriteTargets rows ox oy n) := by
  rw [Canvas.drawSprite, Canvas.plotAll, spriteTargets, List.foldl_flatMap]
  simp only [Canvas.drawRow_eq]
  rfl

/-- Plotting distinct cells inverts exactly those cells, and hits iff one of them was set beforehand. -/
theorem Canvas.plotAll_spec {l : List (Fin 64 × Fin 32)} (hl : l.Nodup) (c : Canvas) :
    (∀ cx cy, Display.cell (c.plotAll l).disp cx cy = (Display.cell c.disp cx cy ^^ decide ((cx, cy) ∈ l))) ∧
      ((c.plotAll l).hit = true ↔ c.hit = true ∨ ∃ p ∈ l, Display.cell c.disp p.1 p.2 = true) := by
  induction l generalizing c with
  | nil => simp [Canvas.plotAll]
  | cons p l ih =>
    rw [List.nodup_cons] at hl
    have h := ih hl.2 (c.plot p.1 p.2)
    have e : c.plotAll (p :: l) = (c.plot p.1 p.2).plotAll l := rfl
    rw [e]
    refine ⟨fun cx cy => ?_, ?_⟩
    · rw [h.1, Canvas.plot, Display.cell_flip]
      by_cases hp : cx = p.1 ∧ cy = p.2
      · obtain ⟨rfl, rfl⟩ := hp
        simp [hl.1]
      · have hne : (cx, cy) ≠ p := fun h => hp ⟨congrArg Prod.fst h, congrArg Prod.snd h⟩
        simp [hp, hne]
    · rw [h.2]
      have hcell : ∀ q ∈ l, Display.cell (c.plot p.1 p.2).disp q.1 q.2 = Display.cell c.disp q.1 q.2 := by
        intro q hq
        rw [Canvas.plot, Display.cell_flip, if_neg]
        rintro ⟨h1, h2⟩
        exact hl.1 ((Prod.ext h1 h2 : q = p) ▸ hq)
      simp only [Canvas.plot, Bool.or_eq_true, List.mem_cons, exists_eq_or_imp, or_assoc]
      refine or_congr Iff.rfl (or_congr Iff.rfl ?_)
      exact exists_congr fun q => and_congr_right fun hq => by
        have := hcell q hq
        simp only [Canvas.plot] at this
        rw [this]

/-- A sprite row aims at distinct cells. -/
theorem rowTargets_nodup (b : Byte) (ox ty : Nat) : (rowTargets b ox ty).Nodup := by
  refine List.Nodup.map_on ?_ (List.Nodup.filter _ List.nodup_range)
  intro a ha c hc h
  have ha' : a < 8 := List.mem_range.mp (List.mem_of_mem_filter ha)
  have hc' : c < 8 := List.mem_range.mp (List.mem_of_mem_filter hc)
  have h1 := congrArg (fun p => p.1.val) h
  simp only [Fin.val_ofNat] at h1
  omega

theorem mem_rowTargets {b : Byte} {ox ty : Nat} {p : Fin 64 × Fin 32} :
    p ∈ rowTargets b ox ty ↔
      ∃ col, col < 8 ∧ b.getLsbD (7 - col) = true ∧ (ox + col) % 64 = p.1.val ∧ ty % 32 = p.2.val := by
  simp only [rowTargets, List.mem_map, List.mem_filter, List.mem_range, and_assoc]
  refine exists_congr fun col => and_congr_right fun _ => and_congr_right fun _ => ?_
  rw [Prod.ext_iff, Fin.ext_iff, Fin.ext_iff]
  simp

theorem mem_spriteTargets {rows : Nat → Byte} {ox oy n : Nat} {p : Fin 64 × Fin 32} :
    p ∈ spriteTargets rows ox oy n ↔
      ∃ row col, row < n ∧ col < 8 ∧ (rows row).getLsbD (7 - col) = true ∧
        (ox + col) % 64 = p.1.val ∧ (oy + row) % 32 = p.2.val := by
  simp only [spriteTargets, List.mem_flatMap, List.mem_range, mem_rowTargets]
  constructor
  · rintro ⟨row, hr, col, hc, h⟩; exact ⟨row, col, hr, hc, h⟩
  · rintro ⟨row, col, hr, hc, h⟩; exact ⟨row, hr, col, hc, h⟩

/-- A sprite of at most 32 rows aims at distinct cells (R107 corner d). -/
theorem spriteTargets_nodup (rows : Nat → Byte) (ox oy : Nat) {n : Nat} (hn : n ≤ 32) :
    (spriteTargets rows ox oy n).Nodup := by
  rw [spriteTargets, List.nodup_flatMap]
  refine ⟨fun row _ => rowTargets_nodup _ _ _, ?_⟩
  refine List.Pairwise.imp_of_mem ?_ (List.nodup_range (n := n))
  intro a c ha hc hne
  rw [List.mem_range] at ha hc
  intro p h1 h2
  obtain ⟨_, _, _, _, e1⟩ := mem_rowTargets.mp h1
  obtain ⟨_, _, _, _, e2⟩ := mem_rowTargets.mp h2
  omega

theorem mem_spriteTargets_iff_covers (s : State) (x y n : Nib) (cx : Fin 64) (cy : Fin 32) :
    (cx, cy) ∈ spriteTargets (fun row => s.byte (s.i.toNat + row)) (s.v x).toNat (s.v y).toNat n.toNat ↔
      spriteCovers s x y n cx cy :=
  mem_spriteTargets

end Sys2Proof.Machine
end

