-- ==== Sys2Proof/Laws/PerInstr.lean ====
section
/-!
SUPPORT. Per instruction: the encoder's word lies in the instruction's row of spec/opcode_table.json, for every operand.
-/

namespace Sys2Proof.Laws

/-- The row's `mask` and `match` in spec/opcode_table.json. -/
def TableRow.maskAndMatch : Instr → Word × Word
  | .cls _ => (0xF00F, 0x0000)
  | .ret _ => (0xF00F, 0x000E)
  | .jp _ => (0xF000, 0x1000)
  | .call _ => (0xF000, 0x2000)
  | .seImm _ _ => (0xF000, 0x3000)
  | .sneImm _ _ => (0xF000, 0x4000)
  | .seReg _ _ _ => (0xF000, 0x5000)
  | .ldImm _ _ => (0xF000, 0x6000)
  | .addImm _ _ => (0xF000, 0x7000)
  | .ldReg _ _ => (0xF00F, 0x8000)
  | .orReg _ _ => (0xF00F, 0x8001)
  | .andReg _ _ => (0xF00F, 0x8002)
  | .xorReg _ _ => (0xF00F, 0x8003)
  | .addReg _ _ => (0xF00F, 0x8004)
  | .sub _ _ => (0xF00F, 0x8005)
  | .shr _ _ => (0xF00F, 0x8006)
  | .subn _ _ => (0xF00F, 0x8007)
  | .shl _ _ => (0xF00F, 0x800E)
  | .sneReg _ _ _ => (0xF000, 0x9000)
  | .ldI _ => (0xF000, 0xA000)
  | .ldIV0 _ => (0xF000, 0xB000)
  | .rnd _ _ => (0xF000, 0xC000)
  | .drw _ _ _ => (0xF000, 0xD000)
  | .skp _ _ => (0xF00F, 0xE00E)
  | .sknp _ _ => (0xF00F, 0xE001)
  | .ldVxDt _ => (0xF0FF, 0xF007)
  | .ldVxK _ => (0xF0FF, 0xF00A)
  | .ldDtVx _ => (0xF0FF, 0xF015)
  | .ldStVx _ => (0xF0FF, 0xF018)
  | .addIVx _ => (0xF0FF, 0xF01E)
  | .ldFVx _ => (0xF0FF, 0xF029)
  | .ldBVx _ => (0xF0FF, 0xF033)
  | .ldMemVx _ => (0xF0FF, 0xF055)
  | .ldVxMem _ => (0xF0FF, 0xF065)

/-- The word of `i`, cut to its row's mask, is its row's match. -/
def TableRow.Statement (i : Instr) : Prop := encode i &&& (TableRow.maskAndMatch i).1 = (TableRow.maskAndMatch i).2

/-! ### The masks on the built words -/

theorem TableRow.wordNNN_mask (op : Nib) (nnn : Imm12) : wordNNN op nnn &&& 0xF000 = wordNNN op 0 := by
  change (op ++ nnn) &&& (0xF#4 ++ 0x0#12) = op ++ 0x0#12
  rw [BitVec.and_append]; congr 1
  · exact BitVec.and_allOnes
  · exact BitVec.and_zero

theorem TableRow.wordXNN_mask (op x : Nib) (nn : Byte) : wordXNN op x nn &&& 0xF000 = wordXNN op 0 0 := by
  change (op ++ x ++ nn) &&& (0xF#4 ++ 0x0#4 ++ 0x0#8) = op ++ 0x0#4 ++ 0x0#8
  rw [BitVec.and_append, BitVec.and_append]; congr 1
  · congr 1
    · exact BitVec.and_allOnes
    · exact BitVec.and_zero
  · exact BitVec.and_zero

theorem TableRow.wordXNN_byteMask (op x : Nib) (nn : Byte) : wordXNN op x nn &&& 0xF0FF = wordXNN op 0 nn := by
  change (op ++ x ++ nn) &&& (0xF#4 ++ 0x0#4 ++ 0xFF#8) = op ++ 0x0#4 ++ nn
  rw [BitVec.and_append, BitVec.and_append]; congr 1
  · congr 1
    · exact BitVec.and_allOnes
    · exact BitVec.and_zero
  · exact BitVec.and_allOnes

theorem TableRow.wordXYN_mask (op x y n : Nib) : wordXYN op x y n &&& 0xF000 = wordXYN op 0 0 0 := by
  change (op ++ x ++ y ++ n) &&& (0xF#4 ++ 0x0#4 ++ 0x0#4 ++ 0x0#4) = op ++ 0x0#4 ++ 0x0#4 ++ 0x0#4
  rw [BitVec.and_append, BitVec.and_append, BitVec.and_append]; congr 1
  · congr 1
    · congr 1
      · exact BitVec.and_allOnes
      · exact BitVec.and_zero
    · exact BitVec.and_zero
  · exact BitVec.and_zero

theorem TableRow.wordXYN_nibbleMask (op x y n : Nib) : wordXYN op x y n &&& 0xF00F = wordXYN op 0 0 n := by
  change (op ++ x ++ y ++ n) &&& (0xF#4 ++ 0x0#4 ++ 0x0#4 ++ 0xF#4) = op ++ 0x0#4 ++ 0x0#4 ++ n
  rw [BitVec.and_append, BitVec.and_append, BitVec.and_append]; congr 1
  · congr 1
    · congr 1
      · exact BitVec.and_allOnes
      · exact BitVec.and_zero
    · exact BitVec.and_zero
  · exact BitVec.and_allOnes

theorem TableRow.wordMid_mask (op : Nib) (mid : BitVec 8) (n : Nib) : wordMid op mid n &&& 0xF00F = wordMid op 0 n := by
  change (op ++ mid ++ n) &&& (0xF#4 ++ 0x0#8 ++ 0xF#4) = op ++ 0x0#8 ++ n
  rw [BitVec.and_append, BitVec.and_append]; congr 1
  · congr 1
    · exact BitVec.and_allOnes
    · exact BitVec.and_zero
  · exact BitVec.and_allOnes

/-! ### One lemma per constructor -/

theorem TableRow.cls (dc : BitVec 8) : TableRow.Statement (.cls dc) := TableRow.wordMid_mask _ _ _
theorem TableRow.ret (dc : BitVec 8) : TableRow.Statement (.ret dc) := TableRow.wordMid_mask _ _ _
theorem TableRow.jp (nnn : Imm12) : TableRow.Statement (.jp nnn) := TableRow.wordNNN_mask _ _
theorem TableRow.call (nnn : Imm12) : TableRow.Statement (.call nnn) := TableRow.wordNNN_mask _ _
theorem TableRow.seImm (x : Nib) (nn : Byte) : TableRow.Statement (.seImm x nn) := TableRow.wordXNN_mask _ _ _
theorem TableRow.sneImm (x : Nib) (nn : Byte) : TableRow.Statement (.sneImm x nn) := TableRow.wordXNN_mask _ _ _
theorem TableRow.seReg (x : Nib) (y : Nib) (dc : BitVec 4) : TableRow.Statement (.seReg x y dc) := TableRow.wordXYN_mask _ _ _ _
theorem TableRow.ldImm (x : Nib) (nn : Byte) : TableRow.Statement (.ldImm x nn) := TableRow.wordXNN_mask _ _ _
theorem TableRow.addImm (x : Nib) (nn : Byte) : TableRow.Statement (.addImm x nn) := TableRow.wordXNN_mask _ _ _
theorem TableRow.ldReg (x : Nib) (y : Nib) : TableRow.Statement (.ldReg x y) := TableRow.wordXYN_nibbleMask _ _ _ _
theorem TableRow.orReg (x : Nib) (y : Nib) : TableRow.Statement (.orReg x y) := TableRow.wordXYN_nibbleMask _ _ _ _
theorem TableRow.andReg (x : Nib) (y : Nib) : TableRow.Statement (.andReg x y) := TableRow.wordXYN_nibbleMask _ _ _ _
theorem TableRow.xorReg (x : Nib) (y : Nib) : TableRow.Statement (.xorReg x y) := TableRow.wordXYN_nibbleMask _ _ _ _
theorem TableRow.addReg (x : Nib) (y : Nib) : TableRow.Statement (.addReg x y) := TableRow.wordXYN_nibbleMask _ _ _ _
theorem TableRow.sub (x : Nib) (y : Nib) : TableRow.Statement (.sub x y) := TableRow.wordXYN_nibbleMask _ _ _ _
theorem TableRow.shr (x : Nib) (y : Nib) : TableRow.Statement (.shr x y) := TableRow.wordXYN_nibbleMask _ _ _ _
theorem TableRow.subn (x : Nib) (y : Nib) : TableRow.Statement (.subn x y) := TableRow.wordXYN_nibbleMask _ _ _ _
theorem TableRow.shl (x : Nib) (y : Nib) : TableRow.Statement (.shl x y) := TableRow.wordXYN_nibbleMask _ _ _ _
theorem TableRow.sneReg (x : Nib) (y : Nib) (dc : BitVec 4) : TableRow.Statement (.sneReg x y dc) := TableRow.wordXYN_mask _ _ _ _
theorem TableRow.ldI (nnn : Imm12) : TableRow.Statement (.ldI nnn) := TableRow.wordNNN_mask _ _
theorem TableRow.ldIV0 (nnn : Imm12) : TableRow.Statement (.ldIV0 nnn) := TableRow.wordNNN_mask _ _
theorem TableRow.rnd (x : Nib) (nn : Byte) : TableRow.Statement (.rnd x nn) := TableRow.wordXNN_mask _ _ _
theorem TableRow.drw (x : Nib) (y : Nib) (n : Nib) : TableRow.Statement (.drw x y n) := TableRow.wordXYN_mask _ _ _ _
theorem TableRow.skp (x : Nib) (dc : BitVec 4) : TableRow.Statement (.skp x dc) := TableRow.wordXYN_nibbleMask _ _ _ _
theorem TableRow.sknp (x : Nib) (dc : BitVec 4) : TableRow.Statement (.sknp x dc) := TableRow.wordXYN_nibbleMask _ _ _ _
theorem TableRow.ldVxDt (x : Nib) : TableRow.Statement (.ldVxDt x) := TableRow.wordXNN_byteMask _ _ _
theorem TableRow.ldVxK (x : Nib) : TableRow.Statement (.ldVxK x) := TableRow.wordXNN_byteMask _ _ _
theorem TableRow.ldDtVx (x : Nib) : TableRow.Statement (.ldDtVx x) := TableRow.wordXNN_byteMask _ _ _
theorem TableRow.ldStVx (x : Nib) : TableRow.Statement (.ldStVx x) := TableRow.wordXNN_byteMask _ _ _
theorem TableRow.addIVx (x : Nib) : TableRow.Statement (.addIVx x) := TableRow.wordXNN_byteMask _ _ _
theorem TableRow.ldFVx (x : Nib) : TableRow.Statement (.ldFVx x) := TableRow.wordXNN_byteMask _ _ _
theorem TableRow.ldBVx (x : Nib) : TableRow.Statement (.ldBVx x) := TableRow.wordXNN_byteMask _ _ _
theorem TableRow.ldMemVx (x : Nib) : TableRow.Statement (.ldMemVx x) := TableRow.wordXNN_byteMask _ _ _
theorem TableRow.ldVxMem (x : Nib) : TableRow.Statement (.ldVxMem x) := TableRow.wordXNN_byteMask _ _ _

end Sys2Proof.Laws
end

