-- ==== Sys2Proof/Tests/Slice0.lean ====
section
/-!
SUPPORT. The model's own tests. Expected results come from spec/95_test_vectors.md (the vector's id stands in the comment),
from the encoding tables of spec/30_encoding.md, or from the rule named. The `witness_` theorems show that the hypotheses of
the statements in `Sys2Proof/Certificates/Slice0/Obligations.lean` can be met, clause by clause, at the ends of their ranges.
-/

namespace Sys2Proof.Tests

open Sys2Proof.Machine

/-- The state after reset with one instruction word at PROGRAM_START. -/
def start (w : Word) : State := State.reset.placeWord w

/-- The state after one cycle of `start w`, changed by `f` first. -/
def run (w : Word) (f : State → State := id) : State := (f (start w)).cycle

/-- Two registers set. -/
def two (x : Nib) (a : Byte) (y : Nib) (b : Byte) (s : State) : State := (s.setV x a).setV y b

/-- The number of occupied stack slots set, every slot 0x0204. -/
def stacked (n : Fin 17) (s : State) : State := { s with stack := Vector.replicate 16 0x204, sp := n }

/-- One key pressed. -/
def keyed (k : Nib) (s : State) : State := s.setKey k true

/-- The FAULT record of a fault at PROGRAM_START. -/
def record (kind : BitVec 3) (instr addr : Word) : FaultRecord :=
  { valid := true, kind := kind, pc := 0x200, instr := instr, addr := addr }

/-! ## Well-formedness: each check refuses an ill-formed term -/

theorem test_canonical_words : (Instr.cls 0x0E).canonical = true ∧ (Instr.ret 0x0E).canonical = true ∧
    (Instr.seReg 1 2 0).canonical = true ∧ (Instr.sneReg 1 2 0).canonical = true ∧
    (Instr.skp 5 9).canonical = true ∧ (Instr.sknp 5 0xA).canonical = true := by decide
theorem test_canonical_refuses_cls : (Instr.cls 0x12).canonical = false := by decide
theorem test_canonical_refuses_ret : (Instr.ret 0xFF).canonical = false := by decide
theorem test_canonical_refuses_seReg : (Instr.seReg 1 2 1).canonical = false := by decide
theorem test_canonical_refuses_sneReg : (Instr.sneReg 1 2 3).canonical = false := by decide
theorem test_canonical_refuses_skp : (Instr.skp 3 0).canonical = false := by decide
theorem test_canonical_refuses_sknp : (Instr.sknp 3 0xF).canonical = false := by decide
theorem test_params_wellFormed : params.wellFormed = true := by decide
theorem test_params_refuses_start : (Params.wellFormed { params with programStart := 4095 }) = false := by decide
theorem test_params_refuses_fontBase : (Params.wellFormed { params with fontBase := 4017 }) = false := by decide
theorem test_params_refuses_fontData : (Params.wellFormed { params with fontData := [0xF0] }) = false := by decide

/-! ## Decoding: a word of every row, written out nibble by nibble from R49 to R53 -/

theorem test_decode_group0 : decodeWord 0b0000000011100000 = .ok (.cls 0x0E) ∧
    decodeWord 0b0000000011101110 = .ok (.ret 0x0E) ∧ decodeWord 0x0120 = .ok (.cls 0x12) := by decide
theorem test_decode_jumps : decodeWord 0b0001001000110100 = .ok (.jp 0x234) ∧
    decodeWord 0b0010001100000000 = .ok (.call 0x300) := by decide
theorem test_decode_immediate_skips : decodeWord 0b0011001100101010 = .ok (.seImm 3 0x2A) ∧
    decodeWord 0b0100001100101010 = .ok (.sneImm 3 0x2A) := by decide
theorem test_decode_register_skips : decodeWord 0b0101000100100000 = .ok (.seReg 1 2 0) ∧
    decodeWord 0b1001000100100011 = .ok (.sneReg 1 2 3) := by decide
theorem test_decode_immediate : decodeWord 0b0110101000111101 = .ok (.ldImm 0xA 0x3D) ∧
    decodeWord 0b0111001000000101 = .ok (.addImm 2 5) := by decide
theorem test_decode_group8_moves : decodeWord 0b1000011110010000 = .ok (.ldReg 7 9) ∧
    decodeWord 0b1000011110010001 = .ok (.orReg 7 9) ∧ decodeWord 0b1000011110010010 = .ok (.andReg 7 9) ∧
    decodeWord 0b1000011110010011 = .ok (.xorReg 7 9) := by decide
theorem test_decode_group8_flags : decodeWord 0b1000011110010100 = .ok (.addReg 7 9) ∧
    decodeWord 0b1000011110010101 = .ok (.sub 7 9) ∧ decodeWord 0b1000011110010110 = .ok (.shr 7 9) ∧
    decodeWord 0b1000011110010111 = .ok (.subn 7 9) ∧ decodeWord 0b1000011110011110 = .ok (.shl 7 9) := by decide
theorem test_decode_index : decodeWord 0b1010001011110000 = .ok (.ldI 0x2F0) ∧
    decodeWord 0b1011001100000000 = .ok (.ldIV0 0x300) := by decide
theorem test_decode_rnd_drw : decodeWord 0b1100001100001111 = .ok (.rnd 3 0x0F) ∧
    decodeWord 0b1101101111000101 = .ok (.drw 0xB 0xC 5) := by decide
theorem test_decode_groupE : decodeWord 0b1110010110011110 = .ok (.skp 5 9) ∧
    decodeWord 0b1110010110100001 = .ok (.sknp 5 0xA) := by decide
theorem test_decode_groupF_timers : decodeWord 0b1111001100000111 = .ok (.ldVxDt 3) ∧
    decodeWord 0b1111001100001010 = .ok (.ldVxK 3) ∧ decodeWord 0b1111001100010101 = .ok (.ldDtVx 3) ∧
    decodeWord 0b1111001100011000 = .ok (.ldStVx 3) := by decide
theorem test_decode_groupF_index : decodeWord 0b1111001100011110 = .ok (.addIVx 3) ∧
    decodeWord 0b1111001100101001 = .ok (.ldFVx 3) ∧ decodeWord 0b1111001100110011 = .ok (.ldBVx 3) ∧
    decodeWord 0b1111001101010101 = .ok (.ldMemVx 3) ∧ decodeWord 0b1111001101100101 = .ok (.ldVxMem 3) := by decide
/-- E4 to E8. -/
theorem test_decode_invalid : decodeWord 0x00E1 = .error (.invalidOpcode 0x00E1) ∧
    decodeWord 0x8008 = .error (.invalidOpcode 0x8008) ∧ decodeWord 0xE09F = .error (.invalidOpcode 0xE09F) ∧
    decodeWord 0xF000 = .error (.invalidOpcode 0xF000) ∧ decodeWord 0xF0FF = .error (.invalidOpcode 0xF0FF) := by
  decide
/-- The bytes of a word lie in memory high byte first (R32). -/
theorem test_decodeBytes_big_endian : decodeBytes [0x6A, 0x3D, 0x12] = .ok (.ldImm 0xA 0x3D, [0x12]) ∧
    decodeBytes [0x6A] = .error .truncated := by decide
theorem test_encodeBytes_big_endian : encodeBytes (.ldImm 0xA 0x3D) = [0x6A, 0x3D] := by decide
theorem test_decodeTableWord : decodeTableWord 16 0x6A3D = some (.ldImm 0xA 0x3D) ∧
    decodeTableWord 16 0x00E1 = none := by decide
theorem test_withFetchWord : (State.reset.withFetchWord 16 0x6A3D).cycle.v 0xA = 0x3D := by decide

/-! ## The cycle -/

/-- R33, F16: an odd PC fetches like an even one. -/
theorem test_fetch_odd : (((State.reset.storeBytes 0x203 [0x6A, 0x3D]).setPc 0x203).cycle.v 0xA = 0x3D) := by decide
/-- F4: the fetch at 0x0FFF faults with addr 0x1000, the word unfetched. -/
theorem test_fetch_fault : (State.reset.setPc 0xFFF).cycle.fault =
    { valid := true, kind := 2, pc := 0xFFF, instr := 0, addr := 0x1000 } := by decide
/-- E4. -/
theorem test_invalid_opcode : (run 0x00E1).fault = record 1 0x00E1 0 ∧ (run 0x00E1).pc = 0x200 ∧
    (run 0x00E1).status = 1 := by decide
/-- S8: 1 becomes 0 and 0 stays 0. -/
theorem test_timers : (run 0x7000 (fun s => (s.setDt 5).setSt 1)).timersOut = (4, 0) ∧ (run 0x7000).dt = 0 := by decide
/-- R65: a faulting cycle ticks no timer. -/
theorem test_fault_ticks_nothing : (run 0x00EE (fun s => s.setDt 5)).dt = 5 := by decide

/-! ## Control flow -/

/-- F1. -/
theorem test_ret_empty : (run 0x00EE).fault = record 3 0x00EE 0 ∧ (run 0x00EE).pc = 0x200 := by decide
/-- F2. -/
theorem test_ret : (run 0x00EE (stacked 1)).pc = 0x204 ∧ (run 0x00EE (stacked 1)).sp = 0 := by decide
/-- F3. -/
theorem test_jp : (run 0x1234).pc = 0x234 := by decide
/-- F5. -/
theorem test_call : (run 0x2300).pc = 0x300 ∧ (run 0x2300).sp = 1 ∧ (run 0x2300).stack[0] = 0x202 := by decide
/-- F7. -/
theorem test_call_full : (run 0x2300 (stacked 16)).fault = record 3 0x2300 0x10 ∧
    (run 0x2300 (stacked 16)).sp = 16 := by decide
/-- F9, F10. -/
theorem test_seImm : (run 0x332A (fun s => s.setV 3 0x2A)).pc = 0x204 ∧
    (run 0x332A (fun s => s.setV 3 0x2B)).pc = 0x202 := by decide
/-- F11, F12. -/
theorem test_sneImm : (run 0x432A (fun s => s.setV 3 0x2A)).pc = 0x202 ∧ (run 0x432A).pc = 0x204 := by decide
/-- E9, F13. -/
theorem test_seReg : (run 0x5121 (two 1 7 2 7)).pc = 0x204 ∧ (run 0x5120 (two 1 7 2 8)).pc = 0x202 := by decide
/-- E10, F15. -/
theorem test_sneReg : (run 0x9123 (two 1 7 2 8)).pc = 0x204 ∧ (run 0x9110 (two 1 7 2 8)).pc = 0x202 := by decide

/-! ## Register load, arithmetic, logic, shift -/

/-- S1. -/
theorem test_ldImm : (run 0x6A3D).v 0xA = 0x3D ∧ (run 0x6A3D).pc = 0x202 := by decide
/-- A1. -/
theorem test_addImm_wraps : (run 0x7205 (fun s => s.setV 2 0xFE)).v 2 = 3 ∧
    (run 0x7205 (fun s => s.setV 2 0xFE)).vf = 0 := by decide
/-- A3. -/
theorem test_ldReg : (run 0x8010 (fun s => s.setV 1 0x12)).v 0 = 0x12 := by decide
/-- A4, with VF = 7 before. -/
theorem test_or : (run 0x8011 (fun s => (two 0 0xF0 1 0x0F s).setVF 7)).v 0 = 0xFF ∧
    (run 0x8011 (fun s => (two 0 0xF0 1 0x0F s).setVF 7)).vf = 7 := by decide
/-- A5. -/
theorem test_and : (run 0x8012 (two 0 0xF3 1 0x3F)).v 0 = 0x33 := by decide
/-- A6. -/
theorem test_xor : (run 0x8013 (two 0 0xFF 1 0x0F)).v 0 = 0xF0 := by decide
/-- S2. -/
theorem test_addReg : (run 0x8014 (two 0 0xFF 1 1)).v 0 = 0 ∧ (run 0x8014 (two 0 0xFF 1 1)).vf = 1 := by decide
/-- A9, A10. -/
theorem test_addReg_alias : (run 0x8F14 (two 0xF 5 1 0xFE)).vf = 3 ∧ (run 0x80F4 (two 0 0xFF 0xF 1)).v 0 = 0 ∧
    (run 0x80F4 (two 0 0xFF 0xF 1)).vf = 1 := by decide
/-- A12, A13. -/
theorem test_sub : (run 0x8015 (two 0 3 1 5)).v 0 = 0xFE ∧ (run 0x8015 (two 0 3 1 5)).vf = 0 ∧
    (run 0x8015 (two 0 5 1 5)).vf = 0 := by decide
/-- A14, A15, A16. -/
theorem test_sub_alias : (run 0x80F5 (two 0 5 0xF 3)).v 0 = 4 ∧ (run 0x80F5 (two 0 5 0xF 3)).vf = 1 ∧
    (run 0x8F15 (two 0xF 9 1 2)).vf = 0xFF ∧ (run 0x8FF5 (two 0 0 0xF 9)).vf = 0 := by decide
/-- A17. -/
theorem test_shr : (run 0x8016 (two 0 0xAA 1 5)).v 0 = 2 ∧ (run 0x8016 (two 0 0xAA 1 5)).vf = 1 := by decide
/-- A18, A19, A20. -/
theorem test_shr_alias : (run 0x80F6 (two 0 0xAA 0xF 3)).v 0 = 0 ∧ (run 0x80F6 (two 0 0xAA 0xF 3)).vf = 1 ∧
    (run 0x8F16 (two 0xF 0 1 7)).vf = 3 ∧ (run 0x8FF6 (two 0 0 0xF 3)).vf = 0 := by decide
/-- A21, A22. -/
theorem test_subn : (run 0x8017 (two 0 3 1 5)).v 0 = 2 ∧ (run 0x8017 (two 0 3 1 5)).vf = 1 ∧
    (run 0x8017 (two 0 5 1 3)).v 0 = 0xFE := by decide
/-- A25, A26. -/
theorem test_subn_alias : (run 0x80F7 (two 0 4 0xF 9)).v 0 = 0xFD ∧ (run 0x80F7 (two 0 4 0xF 9)).vf = 1 ∧
    (run 0x8F17 (two 0xF 2 1 9)).vf = 8 := by decide
/-- A28, A29: the flag is bit 0, not the bit lost at the top. -/
theorem test_shl : (run 0x801E (two 0 0 1 0x80)).v 0 = 0 ∧ (run 0x801E (two 0 0 1 0x80)).vf = 0 ∧
    (run 0x801E (two 0 0 1 0x7F)).v 0 = 0xFE ∧ (run 0x801E (two 0 0 1 0x7F)).vf = 1 := by decide
/-- A30, A31, A32. -/
theorem test_shl_alias : (run 0x80FE (two 0 0 0xF 3)).v 0 = 2 ∧ (run 0x80FE (two 0 0 0xF 3)).vf = 1 ∧
    (run 0x8F1E (two 0xF 0 1 0x81)).vf = 2 ∧ (run 0x8FFE (two 0 0 0xF 3)).vf = 2 := by decide

/-! ## Index register and memory -/

/-- M1. -/
theorem test_ldI : (run 0xA2F0).i = 0x2F0 := by decide
/-- M3. -/
theorem test_ldIV0 : (run 0xBFFF (fun s => s.setV 0 0xFF)).i = 0x10FE ∧
    (run 0xBFFF (fun s => s.setV 0 0xFF)).pc = 0x202 := by decide
/-- M5. -/
theorem test_addIVx_wraps : (run 0xF21E (fun s => (s.setI 0xFFFF).setV 2 1)).i = 0 ∧
    (run 0xF21E (fun s => (s.setI 0xFFFF).setV 2 1)).vf = 0 := by decide
/-- M6, M7. -/
theorem test_ldFVx : (run 0xF429 (fun s => s.setV 4 0xA)).i = 0x82 ∧
    (run 0xF429 (fun s => s.setV 4 0xFF)).i = 0x54B := by decide
/-- S3. -/
theorem test_ldBVx : (List.range 3).map (fun k => (run 0xF033 (fun s => (s.setI 0x300).setV 0 0x9C)).byte (0x300 + k)) = [1, 5, 6] := by decide
/-- M10. -/
theorem test_ldBVx_fault : (run 0xF033 (fun s => (s.setI 0xFFE).setV 0 7)).fault = record 2 0xF033 0x1000 ∧
    (run 0xF033 (fun s => (s.setI 0xFFE).setV 0 7)).byte 0xFFF = 0 := by decide
/-- M11. -/
theorem test_ldMemVx : (run 0xFF55 (fun s => two 0 1 0xF 0xEE (s.setI 0xFF0))).i = 0x1000 ∧
    (run 0xFF55 (fun s => two 0 1 0xF 0xEE (s.setI 0xFF0))).byte 0xFF0 = 1 ∧
    (run 0xFF55 (fun s => two 0 1 0xF 0xEE (s.setI 0xFF0))).byte 0xFFF = 0xEE := by decide
/-- M12. -/
theorem test_ldMemVx_fault : (run 0xFF55 (fun s => two 0 1 0xF 0xEE (s.setI 0xFF1))).fault = record 2 0xFF55 0x1000 ∧
    (run 0xFF55 (fun s => two 0 1 0xF 0xEE (s.setI 0xFF1))).i = 0xFF1 := by decide
/-- M13. -/
theorem test_ldVxMem : (List.range 3).map (fun k =>
    (run 0xF165 (fun s => (s.storeBytes 0x300 [0xAA, 0xBB, 0xCC]).setI 0x300)).v (BitVec.ofNat 4 k)) =
    [0xAA, 0xBB, 0] := by decide
/-- M15. -/
theorem test_ldVxMem_fault : (run 0xF165 (fun s => s.setI 0xFFFF)).fault = record 2 0xF165 0xFFFF := by decide

/-! ## Display -/

/-- DR8. -/
theorem test_cls : (run 0x00E0 (fun s => (s.setDisp (s.disp.flip 3 4)).setVF 1)).disp = Display.blank ∧
    (run 0x00E0 (fun s => (s.setDisp (s.disp.flip 3 4)).setVF 1)).vf = 1 := by decide
/-- DR6: every pixel wraps by itself. -/
theorem test_drw_wraps : (run 0xD011 (fun s => two 0 0xFF 1 0xFF ((s.storeBytes 0x300 [0xC0]).setI 0x300))).disp =
    (Display.blank.flip 63 31).flip 0 31 := by decide
/-- DR7: one cell hit, one not. -/
theorem test_drw_collides :
    (run 0xD011 (fun s => ((s.storeBytes 0x300 [0xC0]).setI 0x300).setDisp (Display.blank.flip 0 0))).disp =
      Display.blank.flip 1 0 ∧
    (run 0xD011 (fun s => ((s.storeBytes 0x300 [0xC0]).setI 0x300).setDisp (Display.blank.flip 0 0))).vf = 1 := by
  decide

/-! ## Random, keys, timers -/

/-- N1. -/
theorem test_rnd : (run 0xC30F (fun s => s.presentRand [0xA7, 0x11])).v 3 = 7 ∧
    (run 0xC30F (fun s => s.presentRand [0xA7, 0x11])).rand.queue = [0x11] := by decide
/-- K1, K2. -/
theorem test_skp : (run 0xE59E (fun s => keyed 0xA (s.setV 5 0xA))).pc = 0x204 ∧
    (run 0xE59E (fun s => s.setV 5 0xA)).pc = 0x202 := by decide
/-- K5. -/
theorem test_skp_fault : (run 0xE59E (fun s => s.setV 5 0x10)).fault = record 4 0xE59E 0x10 := by decide
/-- K3, K4. -/
theorem test_sknp : (run 0xE5A1 (fun s => s.setV 5 0xA)).pc = 0x204 ∧
    (run 0xE5A1 (fun s => keyed 0xA (s.setV 5 0xA))).pc = 0x202 := by decide
/-- K6. -/
theorem test_sknp_fault : (run 0xE5A1 (fun s => s.setV 5 0xFF)).fault = record 4 0xE5A1 0xFF := by decide
/-- T1. -/
theorem test_ldVxDt : (run 0xF307 (fun s => s.setDt 0x1E)).v 3 = 0x1E ∧
    (run 0xF307 (fun s => s.setDt 0x1E)).dt = 0x1D := by decide
/-- K9. -/
theorem test_ldVxK_lowest : (run 0xF40A (fun s => keyed 4 (keyed 9 (keyed 12 s)))).v 4 = 4 ∧
    (run 0xF40A (fun s => keyed 4 (keyed 9 (keyed 12 s)))).pc = 0x202 := by decide
/-- K10. -/
theorem test_ldVxK_waits : (run 0xF40A (fun s => (s.setDt 3).setSt 1)).pc = 0x200 ∧
    (run 0xF40A (fun s => (s.setDt 3).setSt 1)).timersOut = (2, 0) := by decide
/-- T3, T4. -/
theorem test_ldDtVx : (run 0xF215 (fun s => s.setV 2 5)).dt = 4 ∧ (run 0xF215 (fun s => s.setDt 9)).dt = 0 := by decide
/-- T5. -/
theorem test_ldStVx : (run 0xF218 (fun s => s.setV 2 2)).st = 1 := by decide

/-! ## The parameters and R60's function -/

/-- A configuration R5 allows that is not the default. -/
def other : Params where
  programStart := 0x600
  fontBase := 0xFB0
  fontData := List.replicate 79 0 ++ [0x80]

/-- R5: reset, the font address of digit 15 and its last byte follow the configuration. -/
theorem test_other_configuration : (State.resetWith other).pc = 0x600 ∧ (State.resetWith other).byte 0xFFF = 0x80 ∧
    (((State.resetWith other).setV 4 0xF).placeWord 0xF429).cycle.i = 0xFFB := by decide
/-- R121: a host reset keeps the configuration. -/
theorem test_reset_keeps_configuration : ((State.resetWith other).setPc 0x700).hostReset.pc = 0x600 := by decide
/-- N1, E4: `CoreState.cycle` on R10's state and one byte. -/
theorem test_core_cycle : ((start 0xC30F).toCoreState.cycle params 0xA7).2.regs[3] = 7 ∧
    ((start 0xC30F).toCoreState.cycle params 0xA7).1 = 0 ∧
    ((start 0x00E1).toCoreState.cycle params 0).1 = 1 ∧
    ((start 0x00E1).toCoreState.cycle params 0).2.fault = record 1 0x00E1 0 := by decide

/-! ## Host moves -/

/-- H1. -/
theorem test_reset_memory : ([0x50, 0x51, 0x54, 0x9B, 0x9C, 0x9F, 0x4F, 0xA0, 0x200].map State.reset.byte) =
    [0xF0, 0x90, 0xF0, 0xF0, 0x80, 0x80, 0, 0, 0] := by decide
/-- H2. -/
theorem test_load : (State.reset.load [0x12, 0x00]).1 = true ∧
    (State.reset.load [0x12, 0x00]).2.byte 0x200 = 0x12 := by decide
/-- H3, H4, of the length alone. -/
theorem test_load_bound : loadFits params 3584 = true ∧ loadFits params 3585 = false := by decide
/-- H6. -/
theorem test_keys : (State.reset.applyAll [.pressKey 3, .pressKey 3, .releaseKey 3]).key 3 = false ∧
    (State.reset.apply (.pressKey 3)).key 3 = true := by decide
/-- H8. -/
theorem test_reset_clears_fault : (run 0x00E1).hostReset.faultOut = FaultRecord.clear := by decide
/-- H9. -/
theorem test_snapshot : (State.reset.setDisp (Display.blank.flip 2 1)).dispOut 66 = true ∧
    (State.reset.setDisp (Display.blank.flip 2 1)).dispOut 65 = false := by decide

/-! ## Witnesses: the hypotheses of each statement met by a concrete state and operands -/

/-- EncodeAfterDecode: decoded words at both ends of the word range. -/
theorem witness_encodeAfterDecode : decodeWord 0x0000 = .ok (.cls 0) ∧ decodeWord 0xFF65 = .ok (.ldVxMem 0xF) := by decide

/-- InvalidWordsExactly: a rejected word of each of R55's four classes, and its valid neighbours. -/
theorem witness_invalidWords :
    decodeWord 0x000D = .error (.invalidOpcode 0x000D) ∧ decodeWord 0x000E = .ok (.ret 0) ∧
    decodeWord 0x8008 = .error (.invalidOpcode 0x8008) ∧ decodeWord 0x8007 = .ok (.subn 0 0) ∧
    decodeWord 0x800D = .error (.invalidOpcode 0x800D) ∧ decodeWord 0x800F = .error (.invalidOpcode 0x800F) ∧
    decodeWord 0xE000 = .error (.invalidOpcode 0xE000) ∧ decodeWord 0xE002 = .error (.invalidOpcode 0xE002) ∧
    decodeWord 0xE00F = .error (.invalidOpcode 0xE00F) ∧
    decodeWord 0xF066 = .error (.invalidOpcode 0xF066) ∧ decodeWord 0xFFFF = .error (.invalidOpcode 0xFFFF) := by decide

/-- DontCareBitsChooseNothing: an Ok end state (`t.status = 0`) of RET, SKP and SKNP, with non-canonical don't-care bits. -/
theorem witness_dontCare : ((stacked 1 (start 0x0FFE)).cycle).status = 0 ∧ (run 0xE30E).status = 0 ∧
    (run 0xE3F1).status = 0 := by decide

/-- StepRunsDecodedInstruction: at PROGRAM_START, and at the last address a fetch can start from. -/
theorem witness_stepRuns :
    ((start 0x6A3D).pc.toNat ≤ 4094 ∧ decodeWord (wordAtPc (start 0x6A3D)) = .ok (.ldImm 0xA 0x3D)) ∧
    (((State.reset.setPc 0xFFE).placeWord 0x6A3D).pc.toNat = 4094 ∧
      decodeWord (wordAtPc ((State.reset.setPc 0xFFE).placeWord 0x6A3D)) = .ok (.ldImm 0xA 0x3D)) := by decide

/-- FetchReadsBigEndianOrFaults: PC 4094 for the first clause, 4095, 4096, 4097 and 65535 for the second. -/
theorem witness_fetch : (State.reset.setPc 4094).pc.toNat ≤ 4094 ∧ 4095 ≤ (State.reset.setPc 4095).pc.toNat ∧
    (State.reset.setPc 4095).cycle.fault.addr = 4096 ∧ (State.reset.setPc 4096).cycle.fault.addr = 4096 ∧
    (State.reset.setPc 4097).cycle.fault.addr = 4097 ∧ (State.reset.setPc 65535).cycle.fault.addr = 65535 := by decide

/-- EveryCycleIsOkOrItsOneFault: a state of each outcome. -/
theorem witness_cycleFault : cycleFault (start 0x6A3D) = none ∧ cycleFault (State.reset.setPc 4095) = some (2, 0, 4096) ∧
    cycleFault (start 0x00E1) = some (1, 0x00E1, 0) ∧ cycleFault (start 0x00EE) = some (3, 0x00EE, 0) ∧
    cycleFault ((start 0xE59E).setV 5 16) = some (4, 0xE59E, 16) := by decide

/-- EveryInstructionFaultsOrKeepsItsFrame: each faulting instruction at both sides of its limit. -/
theorem witness_execFault :
    execFault (.drw 0 1 1) (State.reset.setI 4095) = none ∧
    execFault (.drw 0 1 1) (State.reset.setI 4096) = some (2, 4096) ∧
    execFault (.drw 0 1 0) (State.reset.setI 65535) = none ∧
    execFault (.ldBVx 0) (State.reset.setI 4093) = none ∧
    execFault (.ldBVx 0) (State.reset.setI 4094) = some (2, 4096) ∧
    execFault (.ldMemVx 15) (State.reset.setI 4080) = none ∧
    execFault (.ldMemVx 15) (State.reset.setI 4081) = some (2, 4096) ∧
    execFault (.ldVxMem 0) (State.reset.setI 4095) = none ∧
    execFault (.ldVxMem 0) (State.reset.setI 5000) = some (2, 5000) ∧
    execFault (.call 0) (stacked 15 State.reset) = none ∧ execFault (.call 0) (stacked 16 State.reset) = some (3, 16) ∧
    execFault (.ret 0) (stacked 1 State.reset) = none ∧ execFault (.ret 0) State.reset = some (3, 0) ∧
    execFault (.skp 0 9) (State.reset.setV 0 15) = none ∧
    execFault (.skp 0 9) (State.reset.setV 0 16) = some (4, 16) ∧
    execFault (.sknp 0 9) (State.reset.setV 0 255) = some (4, 255) := by decide

/-- OnlyNamedRegistersChange: a register beside the destination and VF, and beside the block of a register load. -/
theorem witness_onlyNamedRegisters : (∃ t, exec (.addReg 0 1) (start 0x8014) = .next t) ∧ ¬ mayWriteReg (.addReg 0 1) 2 ∧
    (∃ t, exec (.ldVxMem 3) (start 0xF365) = .next t) ∧ ¬ mayWriteReg (.ldVxMem 3) 4 :=
  ⟨⟨_, rfl⟩, by unfold mayWriteReg; decide, ⟨_, rfl⟩, by unfold mayWriteReg; decide⟩

/-- OnlyStoredBytesChange: the addresses next to the stored ones, at both ends. -/
theorem witness_onlyStoredBytes : (∃ t, exec (.ldBVx 0) ((start 0xF033).setI 0x300) = .next t) ∧
    ¬ storesTo (.ldBVx 0) ((start 0xF033).setI 0x300) 0x2FF ∧ ¬ storesTo (.ldBVx 0) ((start 0xF033).setI 0x300) 0x303 ∧
    ¬ storesTo (.ldMemVx 15) ((start 0xFF55).setI 0x300) 0x310 ∧ ¬ storesTo (.cls 0) State.reset 0x200 :=
  ⟨⟨_, rfl⟩, by unfold storesTo; decide, by unfold storesTo; decide, by unfold storesTo; decide, by unfold storesTo; decide⟩

/-- PcAtTheEndOfEveryCycle, TimersTickOncePerCompletedCycle: a completed and a faulting cycle of RET, and a cycle whose
decode faults. -/
theorem witness_pcAndTimers :
    (∃ t, exec (.ret 0x0E) (stacked 1 (start 0x00EE)) = .next t ∧ t.status = 0) ∧
    (∃ t, exec (.ret 0x0E) (start 0x00EE) = .next t ∧ t.status ≠ 0) ∧
    (∃ t, step (start 0x00E1) = .next t ∧ t.status ≠ 0) :=
  ⟨⟨_, rfl, by decide⟩, ⟨_, rfl, by decide⟩, ⟨_, rfl, by decide⟩⟩

/-- RandomByteReachesOnlyRnd: an instruction that is no RND, and two ports that present the same byte. -/
theorem witness_randomByte : (∀ x nn, Instr.cls 0 ≠ .rnd x nn) ∧
    State.randByte { State.reset.presentRand [7] with rand := { queue := [7, 8], drawn := 3 } } =
      (State.reset.presentRand [7]).randByte := ⟨fun _ _ => by simp, by decide⟩

/-- NoCycleChangesKeys, StepKeepsMemoryCanonical, StepKeepsPcBounded, StepKeepsFaultRecordLegal: a state that meets each
premise and takes a step, with memory, a stack slot and a fault in it. -/
theorem witness_stepInvariants :
    (∃ t, step (keyed 3 (start 0x00E0)) = .next t) ∧
    (Memory.wf params ((start 0xF033).setI 0x300).mem = true ∧ ∃ t, step ((start 0xF033).setI 0x300) = .next t) ∧
    (State.PcBounded (stacked 1 (start 0x00EE)) ∧ ∃ t, step (stacked 1 (start 0x00EE)) = .next t) ∧
    ((run 0x00E1).fault.Legal ∧ ∃ t, step (run 0x00E1) = .next t) := by
  refine ⟨⟨_, rfl⟩, ⟨by decide, _, rfl⟩, ⟨⟨by decide, ?_⟩, _, rfl⟩, ⟨?_, _, rfl⟩⟩
  · intro k h _
    have e : (stacked 1 (start 0x00EE)).stack = Vector.replicate 16 0x204 := rfl
    simp only [e, Vector.getElem_replicate]; decide
  · unfold FaultRecord.Legal; decide

/-- FaultValidIsSticky: a faulted state, moves other than reset, and a completed cycle after the fault. -/
theorem witness_faultSticky : HostOp.cycle ≠ .reset ∧ HostOp.load [] ≠ .reset ∧ (run 0x00E1).fault.valid = true ∧
    (∃ t, step ((run 0x00E1).placeWord 0x00E0) = .next t ∧ t.status = 0) :=
  ⟨by decide, by decide, by decide, ⟨_, rfl, by decide⟩⟩

/-- StepIsCycleOfCoreStateAndByte: a cycle that runs RND, one that runs another instruction, one whose fetch faults. -/
theorem witness_runsRnd : runsRnd (start 0xC30F) ∧ ¬ runsRnd (start 0x00E0) ∧ ¬ runsRnd (State.reset.setPc 4095) := by
  refine ⟨⟨by decide, 3, 0x0F, by decide⟩, ?_, fun h => absurd h.1 (by decide)⟩
  rintro ⟨_, x, nn, h⟩
  have e : decodeWord (wordAtPc (start 0x00E0)) = .ok (.cls 0x0E) := by decide
  rw [e] at h
  cases h

/-- ParkedStaysParked: a jump to itself at PROGRAM_START, and one at the last address a fetch can start from. -/
theorem witness_parked : (start 0x1200).Parked ∧ ((State.reset.setPc 0xFFE).placeWord 0x1FFE).Parked := by
  unfold State.Parked; decide

/-- HostMovesKeepInvariant: a state other than reset's that meets the invariant. -/
theorem witness_invariant : (start 0x6A3D).Inv := by
  refine ⟨by decide, by decide, ⟨by decide, fun k h hk => absurd hk (Nat.not_lt_zero k)⟩, ?_, by decide⟩
  unfold FaultRecord.Legal; decide

/-- CallPushesNpcOrFaults and ReturnPopsOrFaults: each clause at both ends of SP. -/
theorem witness_stack : (stacked 0 State.reset).sp.val < 16 ∧ (stacked 15 State.reset).sp.val < 16 ∧
    (stacked 16 State.reset).sp = 16 ∧ 0 < (stacked 1 State.reset).sp.val ∧ 0 < (stacked 16 State.reset).sp.val ∧
    (stacked 0 State.reset).sp = 0 := by decide

/-- F6: CALL at SP 15 fills the last slot. -/
theorem witness_call_last_slot : (run 0x2300 (stacked 15)).sp = 16 ∧ (run 0x2300 (stacked 15)).stack[15] = 0x202 ∧
    (run 0x2300 (stacked 15)).stack[14] = 0x204 := by decide

/-- AddRegisterEndValues and the other four of R92: operands for every aliasing case, VF the destination, the source, both,
or neither, and a register that is neither the destination nor VF. -/
theorem witness_aliasing : (0 : Nib) ≠ 0xF ∧ (1 : Nib) ≠ 0xF ∧ (2 : Nib) ≠ 0 ∧ (2 : Nib) ≠ 0xF ∧ (0xF : Nib) = 0xF := by
  decide

/-- BcdStoresThreeDigitsOrFaults: I at 4093, 4094 (M9). -/
theorem witness_bcd : (State.reset.setI 4093).i.toNat + 2 ≤ 4095 ∧ 4095 < (State.reset.setI 4094).i.toNat + 2 ∧
    (run 0xF033 (fun s => (s.setI 0xFFD).setV 0 7)).byte 0xFFF = 7 := by decide

/-- RegisterDumpOrFaults and RegisterLoadOrFaults: the last register in range and the first out of it, k at 0 and at X. -/
theorem witness_block : (State.reset.setI 4080).i.toNat + (15 : Nib).toNat ≤ 4095 ∧
    4095 < (State.reset.setI 4081).i.toNat + (15 : Nib).toNat ∧ (State.reset.setI 4095).i.toNat + (0 : Nib).toNat ≤ 4095 ∧
    4095 < (State.reset.setI 4095).i.toNat + (1 : Nib).toNat ∧ (0 : Nib).toNat ≤ (15 : Nib).toNat ∧
    (15 : Nib).toNat ≤ (15 : Nib).toNat := by decide

/-- M14: the load at the last address. -/
theorem witness_load_last_byte : (run 0xF065 (fun s => (s.storeBytes 0xFFF [0x5A]).setI 0xFFF)).v 0 = 0x5A ∧
    (run 0xF065 (fun s => (s.storeBytes 0xFFF [0x5A]).setI 0xFFF)).i = 0x1000 := by decide

/-- DumpThenLoadRecovers and StoreIsSeenByNextFetch: a dump of V0..V5 that completes (S7), and a state that has its memory
and the old I. -/
theorem witness_dump : ∃ t, ∃ u : State, exec (.ldMemVx 5) ((start 0xF555).setI 0x300) = .next t ∧ t.status = 0 ∧ (∀ a, u.byte a = t.byte a) ∧
    u.i = ((start 0xF555).setI 0x300).i ∧ (0 : Nib).toNat + 1 ≤ (5 : Nib).toNat ∧ (4 : Nib).toNat + 1 ≤ (5 : Nib).toNat :=
  ⟨_, State.setI (State.cycle ((start 0xF555).setI 0x300)) 0x300, rfl, by decide, fun _ => rfl, by decide,
    by decide, by decide⟩

/-- DrawXorsSpriteOrFaults: the first clause with N = 0 and with the last row at 4095, the second at the next address; a
covered cell, set and unset, and one that is not covered. -/
theorem witness_drw : ((0 : Nib).toNat = 0 ∨ (State.reset.setI 65535).i.toNat + (0 : Nib).toNat - 1 ≤ 4095) ∧
    ((State.reset.setI 4081).i.toNat + (15 : Nib).toNat - 1 ≤ 4095) ∧
    (1 ≤ (15 : Nib).toNat ∧ 4095 < (State.reset.setI 4082).i.toNat + (15 : Nib).toNat - 1) ∧
    (1 ≤ (1 : Nib).toNat ∧ 4095 < (State.reset.setI 4096).i.toNat + (1 : Nib).toNat - 1) ∧
    spriteCovers ((State.reset.storeBytes 0x300 [0x80]).setI 0x300) 0 1 1 0 0 ∧
    Display.cell ((State.reset.setDisp (Display.blank.flip 0 0)).disp) 0 0 = true ∧
    (¬ ∃ cx cy, spriteCovers State.reset 0 1 1 cx cy ∧ Display.cell State.reset.disp cx cy = true) ∧
    ¬ spriteCovers State.reset 0 1 0 0 0 := by
  refine ⟨by decide, by decide, by decide, by decide, ⟨0, 0, by decide⟩, by decide, ?_, ?_⟩
  · rintro ⟨cx, cy, _, h⟩
    have e : ∀ (a : Nat) (ha : a < 32) (b : Nat) (hb : b < 64), Display.blank[a][b] = false := by
      intro a ha b hb
      simp only [Display.blank, Vector.getElem_replicate]
    exact absurd h (by rw [Display.cell, show State.reset.disp = Display.blank from rfl, e _ cy.isLt _ cx.isLt]; decide)
  · rintro ⟨row, col, h, _⟩
    exact absurd h (Nat.not_lt_zero row)

/-- DRW on the edge of memory: DR5, and DR3 with its N = 0. -/
theorem witness_drw_edge : (run 0xD011 (fun s => (s.storeBytes 0xFFF [1]).setI 0xFFF)).disp = Display.blank.flip 7 0 ∧
    (run 0xD010 (fun s => (s.setI 0xFFFF).setVF 9)).vf = 0 ∧ (run 0xD010 (fun s => (s.setI 0xFFFF).setVF 9)).status = 0 := by
  decide

/-- DrawTwiceRestoresDisplay: the first draw completes, and the state it leaves is one the second can start from (S4, S5). -/
theorem witness_drawTwice : ∃ t, ∃ u : State, exec (.drw 0 1 1) ((start 0xD011).setI 0x200) = .next t ∧ t.status = 0 ∧
    u.disp = t.disp ∧ (∀ a, u.byte a = ((start 0xD011).setI 0x200).byte a) ∧ u.i = ((start 0xD011).setI 0x200).i ∧
    u.v 0 = ((start 0xD011).setI 0x200).v 0 ∧ u.v 1 = ((start 0xD011).setI 0x200).v 1 :=
  ⟨_, State.cycle ((start 0xD011).setI 0x200), rfl, by decide, by decide, fun _ => rfl, by decide, by decide, by decide⟩

/-- RandomAndConsumesOneByte: a byte presented, and none. -/
theorem witness_rnd : (State.reset.presentRand [0xA7]).rand.queue = 0xA7 :: [] ∧ State.reset.rand.queue = [] := by decide

/-- KeySkipsOrFault: V[X] at 0, 15, 16 and 255. -/
theorem witness_keySkips : ((State.reset.setV 5 0).v 5).toNat < 16 ∧ ((State.reset.setV 5 15).v 5).toNat < 16 ∧
    15 < ((State.reset.setV 5 16).v 5).toNat ∧ 15 < ((State.reset.setV 5 255).v 5).toNat := by decide

/-- KeyWaitTakesLeastKeyOrStays: the least key of two, the first, the last, and none. -/
theorem witness_keyWait :
    ((keyed 4 (keyed 9 State.reset)).key 4 = true ∧
      ∀ j : Nib, j.toNat < (4 : Nib).toNat → (keyed 4 (keyed 9 State.reset)).key j = false) ∧
    (keyed 0 State.reset).key 0 = true ∧
    ((keyed 15 State.reset).key 15 = true ∧ ∀ j : Nib, j.toNat < (15 : Nib).toNat → (keyed 15 State.reset).key j = false) ∧
    ∀ k : Nib, (start 0xF40A).key k = false := by decide

/-- ResetMeetsInvariant and ResetValues: the default configuration, and another that R5 allows, whose font table ends at the
last byte; offsets at both ends of the font table, and addresses on both sides of it. -/
theorem witness_configurations : params.wellFormed = true ∧ other.wellFormed = true ∧
    (0 < other.fontData.length ∧ 79 < other.fontData.length) ∧
    (other.fontBase - 1 ≤ 4095 ∧ (other.fontBase - 1 < other.fontBase ∨ other.fontBase + 80 ≤ other.fontBase - 1)) ∧
    (params.fontBase + 80 ≤ 4095 ∧
      (params.fontBase + 80 < params.fontBase ∨ params.fontBase + 80 ≤ params.fontBase + 80)) := by decide

/-- LoadWritesProgramOrRejects: the longest program that fits, and one byte more. -/
theorem witness_load : (List.replicate 3584 (0 : Byte)).length ≤ 4096 - State.reset.config.programStart ∧
    4096 - State.reset.config.programStart < (List.replicate 3585 (0 : Byte)).length := by
  simp only [List.length_replicate]; decide

/-- HostWritesOnlyProgramKeysAndPort: a move of each kind it speaks of, and the last address below PROGRAM_START. -/
theorem witness_hostWrites : HostOp.load [1] ≠ .reset ∧ HostOp.load [1] ≠ .cycle ∧ HostOp.pressKey 3 ≠ .reset ∧
    HostOp.pressKey 3 ≠ .cycle ∧ HostOp.presentRand [7] ≠ .reset ∧ HostOp.presentRand [7] ≠ .cycle ∧
    State.reset.config.programStart - 1 < State.reset.config.programStart := by decide

/-- PressAndReleaseOneKey: the key named, and another. -/
theorem witness_keys : (3 : Nib) = 3 ∧ (4 : Nib) ≠ 3 := by decide

/-- SnapshotIsRowMajor: cells (2, 1), (0, 0) and (63, 31). -/
theorem witness_snapshot : (66 : Fin 2048).val = 64 * (1 : Fin 32).val + (2 : Fin 64).val ∧
    (0 : Fin 2048).val = 64 * (0 : Fin 32).val + (0 : Fin 64).val ∧
    (2047 : Fin 2048).val = 64 * (31 : Fin 32).val + (63 : Fin 64).val := by decide

end Sys2Proof.Tests
end

section
/-!
What a cycle takes from the two ports of R120. `s.withPorts q` is `s` with the ports `q`: no step reads `status`, and none
but an RND reads the random port, so a cycle from `s.withPorts q` ends like the one from `s`, but for the random port, which
is handed through (R60, R68). From this follows that the step is R60's function.
-/

namespace Sys2Proof.Machine

/-! ## A machine with other ports -/

/-- `s` with the ports `q`; the state of the CORE and the configuration are those of `s`. -/
def State.withPorts (s : State) (q : Ports) : State := { s with toPorts := q }

/-- The ports on which R60's function presents its byte. -/
def Ports.presenting (b : Byte) : Ports where
  status := 0
  rand := { queue := [b], drawn := 0 }

/-- R60's function runs the machine of `s` with one byte on its port. -/
theorem CoreState.withRand_eq (s : State) (b : Byte) :
    s.toCoreState.withRand s.config b = s.withPorts (Ports.presenting b) := rfl

theorem State.v_withPorts (s : State) (q : Ports) (r : Nib) : (s.withPorts q).v r = s.v r := rfl

theorem State.firstKey_withPorts (s : State) (q : Ports) : (s.withPorts q).firstKey = s.firstKey := rfl

theorem State.loadRegs_withPorts (s : State) (q : Ports) (base n : Nat) :
    (s.withPorts q).loadRegs base n = (s.loadRegs base n).withPorts q := by
  induction n with
  | zero => rfl
  | succ k ih => rw [State.loadRegs, State.loadRegs, ih]; rfl

/-! ## Results that differ in the random port alone -/

/-- `r` ends a cycle from `s` in a next state of the same configuration with the random port of `s`, and `r'` in that same
state but for the random port, which is that of `q`. -/
def HandsPortThrough (s : State) (q : Ports) (r r' : Result) : Prop :=
  ∃ t, r = .next t ∧ t.config = s.config ∧ t.rand = s.rand ∧ r' = .next { t with rand := q.rand }

section
variable {s u u' : State} {q : Ports}

/-- A cycle that completes hands the port through if its handler does. -/
theorem complete_handsPortThrough (hc : u.config = s.config) (hr : u.rand = s.rand) (hu : u' = u.withPorts q) :
    HandsPortThrough s q (complete u) (complete u') :=
  ⟨_, complete_eq u, hc, hr, by rw [hu]; rfl⟩

/-- A cycle that faults hands the port through. -/
theorem takeFault_handsPortThrough (k : FaultKind) (word addr : Word) :
    HandsPortThrough s q (takeFault s k word addr) (takeFault (s.withPorts q) k word addr) :=
  ⟨_, rfl, rfl, rfl, rfl⟩

/-- A choice between two results that hand the port through. -/
theorem HandsPortThrough.ite {c : Prop} [Decidable c] {r₁ r₁' r₂ r₂' : Result} (h₁ : HandsPortThrough s q r₁ r₁')
    (h₂ : HandsPortThrough s q r₂ r₂') : HandsPortThrough s q (if c then r₁ else r₂) (if c then r₁' else r₂') := by
  split
  · exact h₁
  · exact h₂

end

/-! ## The instructions with more than one end -/

section
variable (s : State) (q : Ports)

theorem execRet_handsPortThrough (dc : BitVec 8) :
    HandsPortThrough s q (execRet dc s) (execRet dc (s.withPorts q)) := by
  unfold execRet
  by_cases h : s.sp = 0
  · rw [State.pop?_empty s.advance h, State.pop?_empty (s.withPorts q).advance h]
    exact takeFault_handsPortThrough _ _ _
  · have hp : s.sp.val ≠ 0 := fun h0 => h (Fin.ext h0)
    rw [State.pop?_of_pos s.advance hp, State.pop?_of_pos (s.withPorts q).advance hp]
    exact complete_handsPortThrough rfl rfl rfl

theorem execCall_handsPortThrough (nnn : Imm12) :
    HandsPortThrough s q (execCall nnn s) (execCall nnn (s.withPorts q)) := by
  unfold execCall
  by_cases h : s.sp.val < 16
  · rw [State.push?_of_lt s.advance _ h, State.push?_of_lt (s.withPorts q).advance _ h]
    exact complete_handsPortThrough rfl rfl rfl
  · have hf : s.sp = 16 := Fin.ext (by have := s.sp.isLt; simp; omega)
    rw [State.push?_full s.advance _ hf, State.push?_full (s.withPorts q).advance _ hf]
    exact takeFault_handsPortThrough _ _ _

/-- A skip, taken or not. -/
theorem skipIf_handsPortThrough (c : Bool) :
    HandsPortThrough s q (complete (s.advance.skipIf c)) (complete ((s.withPorts q).advance.skipIf c)) :=
  complete_handsPortThrough (by simp) (by simp) (by cases c <;> rfl)

theorem execSkp_handsPortThrough (x : Nib) (dc : BitVec 4) :
    HandsPortThrough s q (execSkp x dc s) (execSkp x dc (s.withPorts q)) := by
  unfold execSkp
  rw [State.v_withPorts]
  cases keyCode (s.v x) with
  | none => exact takeFault_handsPortThrough _ _ _
  | some k => exact skipIf_handsPortThrough s q _

theorem execSknp_handsPortThrough (x : Nib) (dc : BitVec 4) :
    HandsPortThrough s q (execSknp x dc s) (execSknp x dc (s.withPorts q)) := by
  unfold execSknp
  rw [State.v_withPorts]
  cases keyCode (s.v x) with
  | none => exact takeFault_handsPortThrough _ _ _
  | some k => exact skipIf_handsPortThrough s q _

theorem execLdVxK_handsPortThrough (x : Nib) :
    HandsPortThrough s q (execLdVxK x s) (execLdVxK x (s.withPorts q)) := by
  unfold execLdVxK
  rw [State.firstKey_withPorts]
  cases s.firstKey with
  | none => exact complete_handsPortThrough rfl rfl rfl
  | some k => exact complete_handsPortThrough rfl rfl rfl

theorem execLdVxMem_handsPortThrough (x : Nib) :
    HandsPortThrough s q (execLdVxMem x s) (execLdVxMem x (s.withPorts q)) := by
  refine HandsPortThrough.ite (complete_handsPortThrough ?_ ?_ ?_) (takeFault_handsPortThrough _ _ _)
  · rw [State.setI_config, State.loadRegs_eq]; rfl
  · rw [State.setI_rand, State.loadRegs_eq]; rfl
  · exact congrArg (fun u => State.setI u _) (State.loadRegs_withPorts s.advance q _ _)

/-! ## Execute, and the whole step -/

/-- Every instruction but RND does the same whatever the ports hold (R68). -/
theorem exec_handsPortThrough (i : Instr) (hi : ∀ x nn, i ≠ .rnd x nn) :
    HandsPortThrough s q (exec i s) (exec i (s.withPorts q)) := by
  cases i
  case rnd x nn => exact absurd rfl (hi x nn)
  case ret => exact execRet_handsPortThrough s q _
  case call => exact execCall_handsPortThrough s q _
  case skp => exact execSkp_handsPortThrough s q _ _
  case sknp => exact execSknp_handsPortThrough s q _ _
  case ldVxK => exact execLdVxK_handsPortThrough s q _
  case ldVxMem => exact execLdVxMem_handsPortThrough s q _
  case seImm | sneImm | seReg | sneReg => exact skipIf_handsPortThrough s q _
  case drw | ldBVx | ldMemVx =>
    exact HandsPortThrough.ite (complete_handsPortThrough rfl rfl rfl) (takeFault_handsPortThrough _ _ _)
  all_goals exact complete_handsPortThrough rfl rfl rfl

end

/-- RND ends in a completed cycle that has drawn the presented byte (R110). -/
theorem exec_rnd_eq (x : Nib) (nn : Byte) (s : State) :
    exec (.rnd x nn) s =
      .next { (s.advance.consumeRand.setV x (s.randByte &&& nn)).tickTimers with status := 0 } := rfl

section
variable {s : State}

theorem step_of_fetch_fails (h : 4094 < s.pc.toNat) : step s = fetchFault s := by
  rw [step, State.fetch_none h]

theorem step_of_decode_error {e : DecodeError} (h : s.pc.toNat ≤ 4094) (hd : decodeWord (wordAtPc s) = .error e) :
    step s = invalidOpcodeFault s (wordAtPc s) := by
  simp only [step, State.fetch_eq h, hd]

theorem step_of_decode_ok {i : Instr} (h : s.pc.toNat ≤ 4094) (hd : decodeWord (wordAtPc s) = .ok i) :
    step s = exec i s := by
  simp only [step, State.fetch_eq h, hd]

/-- A cycle that runs no RND does the same whatever the ports hold (R68). -/
theorem step_handsPortThrough (h : ¬ runsRnd s) (q : Ports) :
    HandsPortThrough s q (step s) (step (s.withPorts q)) := by
  by_cases hpc : s.pc.toNat ≤ 4094
  case neg =>
    rw [step_of_fetch_fails (by omega), step_of_fetch_fails (s := s.withPorts q) (Nat.lt_of_not_le hpc)]
    exact takeFault_handsPortThrough _ _ _
  case pos =>
    cases hd : decodeWord (wordAtPc s) with
    | error e =>
      rw [step_of_decode_error hpc hd, step_of_decode_error (s := s.withPorts q) hpc hd]
      exact takeFault_handsPortThrough _ _ _
    | ok i =>
      rw [step_of_decode_ok hpc hd, step_of_decode_ok (s := s.withPorts q) hpc hd]
      exact exec_handsPortThrough s q i fun x nn hi => h ⟨hpc, x, nn, by rw [hd, hi]⟩

/-! ## R60's function -/

theorem State.cycle_of_step {t : State} (h : step s = .next t) : s.cycle = t := by
  rw [State.cycle, h]

/-- R60's function, from a step of the machine with the byte on its port. -/
theorem CoreState.cycle_of_step {b : Byte} {t : State} (h : step (s.withPorts (Ports.presenting b)) = .next t) :
    s.toCoreState.cycle s.config b = (t.status, t.toCoreState) := by
  rw [CoreState.cycle, CoreState.withRand_eq, State.cycle_of_step h]

/-- A cycle that runs no RND is R60's function, whatever byte that is given. -/
theorem step_of_not_runsRnd (h : ¬ runsRnd s) :
    ∃ t, step s = .next t ∧ (∀ b, s.toCoreState.cycle s.config b = (t.status, t.toCoreState)) ∧ t.config = s.config ∧
      t.rand = s.rand := by
  obtain ⟨t, ht, hc, hr, -⟩ := step_handsPortThrough h s.toPorts
  refine ⟨t, ht, fun b => ?_, hc, hr⟩
  obtain ⟨t', ht', -, -, hb⟩ := step_handsPortThrough h (Ports.presenting b)
  obtain rfl : t = t' := by simpa using ht.symm.trans ht'
  exact (CoreState.cycle_of_step hb :)

/-- A cycle that runs RND is R60's function of the byte the port presents, and takes that byte off the port (R110). -/
theorem step_of_runsRnd (h : runsRnd s) :
    ∃ t, step s = .next t ∧ s.toCoreState.cycle s.config s.randByte = (t.status, t.toCoreState) ∧ t.config = s.config ∧
      t.rand = s.consumeRand.rand := by
  obtain ⟨hpc, x, nn, hd⟩ := h
  have hstep := (step_of_decode_ok hpc hd).trans (exec_rnd_eq x nn s)
  have hbyte := (step_of_decode_ok (s := s.withPorts (Ports.presenting s.randByte)) hpc hd).trans (exec_rnd_eq x nn _)
  exact ⟨_, hstep, (CoreState.cycle_of_step hbyte :), rfl, rfl⟩

end

/-- Settles O59: a cycle that runs RND draws the byte R60's function is given; every other cycle hands the ports through,
and so is R60's function of any byte. -/
theorem stepIsCycleOfCoreStateAndByte : Obligations.StepIsCycleOfCoreStateAndByte := by
  intro s
  by_cases h : runsRnd s
  · obtain ⟨t, ht, hcycle, hc, hr⟩ := step_of_runsRnd h
    exact ⟨⟨t, ht, hcycle.symm, hc, fun _ => hr, fun hn => absurd h hn⟩, fun hn => absurd h hn⟩
  · obtain ⟨t, ht, hcycle, hc, hr⟩ := step_of_not_runsRnd h
    exact ⟨⟨t, ht, (hcycle _).symm, hc, fun hy => absurd hy h, fun _ => hr⟩,
      fun _ b b' => (hcycle b).trans (hcycle b').symm⟩

end Sys2Proof.Machine
end

section
/-!
What a cycle can do, said once for all instructions. `effect i s` is what the handler of `i` does to every part but PC, which
ends where R16's table (`endPc`) says; `exec_cases` says that `exec` either takes the fault `execFault` names or completes with
that effect, `step_cases` says the same of a whole step, and what an effect leaves alone is one lemma per part of the machine.
-/

namespace Sys2Proof.Machine

/-! ## The effect of an instruction -/

/-- What the handler of `i` does in the state `s`, PC aside, where `execFault` names no fault (R64). -/
def effect (i : Instr) (s : State) : State :=
  match i with
  | .cls _ => s.setDisp Display.blank
  | .ret _ => { s with sp := ⟨s.sp.val - 1, by omega⟩ }
  | .call _ => { s with stack := s.stack.setIfInBounds s.sp.val (s.pc + 2), sp := Fin.ofNat 17 (s.sp.val + 1) }
  | .jp _ | .seImm _ _ | .sneImm _ _ | .seReg _ _ _ | .sneReg _ _ _ | .skp _ _ | .sknp _ _ => s
  | .ldImm x nn => s.setV x nn
  | .addImm x nn => s.setV x (s.v x + nn)
  | .ldReg x y => s.setV x (s.v y)
  | .orReg x y => s.setV x (s.v x ||| s.v y)
  | .andReg x y => s.setV x (s.v x &&& s.v y)
  | .xorReg x y => s.setV x (s.v x ^^^ s.v y)
  | .addReg x y => s.flagThenResult (carryFlag (s.v x) (s.v y)) x (fun _ => s.v x + s.v y)
  | .sub x y => s.flagThenResult (greaterFlag (s.v x) (s.v y)) x (fun t => t.v x - t.v y)
  | .shr x y => s.flagThenResult (lowBitFlag (s.v y)) x (fun t => t.v y >>> 1)
  | .subn x y => s.flagThenResult (greaterFlag (s.v y) (s.v x)) x (fun t => t.v y - t.v x)
  | .shl x y => s.flagThenResult (lowBitFlag (s.v y)) x (fun t => t.v y <<< 1)
  | .ldI nnn => s.setI (zextImm nnn)
  | .ldIV0 nnn => s.setI (zextImm nnn + zextByte (s.v 0))
  | .rnd x nn => s.consumeRand.setV x (s.randByte &&& nn)
  | .drw x y n => (s.setDisp (s.drawn x y n).disp).setVF (collisionFlag (s.drawn x y n).hit)
  | .ldVxDt x => s.setV x s.dt
  | .ldVxK x => { s with regs := (s.firstKey.elim s fun k => s.setV x (k.setWidth 8)).regs }
  | .ldDtVx x => s.setDt (s.v x)
  | .ldStVx x => s.setSt (s.v x)
  | .addIVx x => s.setI (s.i + zextByte (s.v x))
  | .ldFVx x => s.setI (glyphAddress s.config (s.v x))
  | .ldBVx x => s.storeBytes s.i.toNat (bcdDigits (s.v x))
  | .ldMemVx x =>
    (s.storeBytes s.i.toNat (s.regBlock (blockLength x))).setI (s.i + BitVec.ofNat 16 (blockLength x))
  | .ldVxMem x =>
    { s with
      regs := (s.loadRegs s.i.toNat (blockLength x)).regs
      i := s.i + BitVec.ofNat 16 (blockLength x) }

/-- The end of a completed cycle of `i`: its effect, PC by R16's table, the timers ticked, the answer Ok (R66, R67). -/
def completed (i : Instr) (s : State) : State := { ((effect i s).setPc (endPc i s)).tickTimers with status := 0 }

/-- `r` ends a cycle of `i` from `s` as the tables say: it takes the fault of `execFault`, or completes where that names
none. -/
def EndsByTable (i : Instr) (s : State) (r : Result) : Prop :=
  match execFault i s with
  | some (kind, addr) => r = .next (faulted s kind (encode i) addr)
  | none => r = .next (completed i s)

/-! ## Instructions with more than one end -/

section
variable {i : Instr} {s : State} {r : Result}

theorem endsByTable_of_fault {kind : BitVec 3} {addr : Word} (hf : execFault i s = some (kind, addr))
    (hr : r = .next (faulted s kind (encode i) addr)) : EndsByTable i s r := by
  rw [EndsByTable, hf]; exact hr

theorem endsByTable_of_complete {u : State} (hf : execFault i s = none) (hr : r = complete u)
    (hu : u = (effect i s).setPc (endPc i s)) : EndsByTable i s r := by
  rw [EndsByTable, hf, hr, hu]; rfl

/-- An access through I, its range checked first (R36): out of memory it faults, else it completes. -/
theorem endsByTable_access {inRange : Bool} {outOfRange : Prop} [Decidable outOfRange] {u : State}
    (hf : execFault i s = if outOfRange then some (2, outOfRangeAddr s.i) else none) (h : inRange = true ↔ ¬ outOfRange)
    (hu : u = (effect i s).setPc (endPc i s)) :
    EndsByTable i s (if inRange then complete u else indexFault s (encode i)) := by
  by_cases ho : outOfRange
  · rw [if_neg fun hi => h.mp hi ho, indexFault_eq]
    exact endsByTable_of_fault (hf.trans (if_pos ho)) rfl
  · rw [if_pos (h.mpr ho)]
    exact endsByTable_of_complete (hf.trans (if_neg ho)) rfl hu

/-- A skip completes at PC + 4 or PC + 2, and has no other effect. -/
theorem endsByTable_skip {c : Bool} (hf : execFault i s = none) (he : effect i s = s)
    (hpc : endPc i s = if c then s.pc + 4 else s.pc + 2) : EndsByTable i s (complete (s.advance.skipIf c)) := by
  refine endsByTable_of_complete hf rfl ?_
  rw [he, hpc, ← skipIf_pc_eq]
  cases c <;> rfl

theorem execRet_endsByTable (dc : BitVec 8) : EndsByTable (.ret dc) s (execRet dc s) := by
  unfold execRet
  by_cases h : s.sp = 0
  · rw [State.pop?_empty s.advance h]
    exact endsByTable_of_fault (if_pos h) (by simp only [takeFault_eq, h]; rfl)
  · have hp : s.sp.val ≠ 0 := fun h0 => h (Fin.ext h0)
    rw [State.pop?_of_pos s.advance hp]
    refine endsByTable_of_complete (if_neg h) rfl ?_
    have htop : s.stack.toList.getD (s.sp.val - 1) 0 = s.stack[s.sp.val - 1]'(by omega) := by
      rw [List.getD_eq_getElem _ _ (by simp; omega), Vector.getElem_toList]
    rw [endPc, htop]; rfl

theorem execCall_endsByTable (nnn : Imm12) : EndsByTable (.call nnn) s (execCall nnn s) := by
  unfold execCall
  by_cases h : s.sp = 16
  · rw [State.push?_full s.advance _ h]
    exact endsByTable_of_fault (if_pos h) (by simp only [takeFault_eq, h]; rfl)
  · have hlt : s.sp.val < 16 := by have := s.sp.isLt; have := Fin.val_ne_of_ne h; simp at this; omega
    rw [State.push?_of_lt s.advance _ hlt]
    refine endsByTable_of_complete (if_neg h) rfl ?_
    have hsp : (⟨s.sp.val + 1, by omega⟩ : Fin 17) = Fin.ofNat 17 (s.sp.val + 1) :=
      Fin.ext (Nat.mod_eq_of_lt (by omega)).symm
    have hstack : s.stack.set s.sp.val (s.pc + 2) hlt = s.stack.setIfInBounds s.sp.val (s.pc + 2) := by
      ext k hk : 1
      rw [Vector.getElem_set, Vector.getElem_setIfInBounds hk]
    rw [effect, endPc, ← hsp, ← hstack, ← zextImm_eq]; rfl

/-- SKP and SKNP: a fault where V[X] is no key code (R134), else a skip by the key it names. -/
theorem endsByTable_key_skip {x : Nib} (skips : Bool → Bool)
    (hf : execFault i s = if 15 < (s.v x).toNat then some (4, BitVec.ofNat 16 (s.v x).toNat) else none)
    (he : effect i s = s) (hpc : endPc i s = if skips (keyOfReg s x) then s.pc + 4 else s.pc + 2)
    (hnone : keyCode (s.v x) = none → r = takeFault s .keypadFault (encode i) (zextByte (s.v x)))
    (hsome : ∀ k, keyCode (s.v x) = some k → r = complete (s.advance.skipIf (skips (s.key k)))) :
    EndsByTable i s r := by
  by_cases h : 15 < (s.v x).toNat
  · rw [hnone (keyCode_of_gt h), takeFault_eq, zextByte_eq]
    exact endsByTable_of_fault (hf.trans (if_pos h)) rfl
  · have hle : (s.v x).toNat ≤ 15 := by omega
    rw [hsome _ (keyCode_of_le hle), key_of_code hle]
    exact endsByTable_skip (hf.trans (if_neg h)) he hpc

theorem execSkp_endsByTable (x : Nib) (dc : BitVec 4) : EndsByTable (.skp x dc) s (execSkp x dc s) :=
  endsByTable_key_skip id rfl rfl rfl (fun h => by rw [execSkp, h]) (fun k h => by rw [execSkp, h]; rfl)

theorem execSknp_endsByTable (x : Nib) (dc : BitVec 4) : EndsByTable (.sknp x dc) s (execSknp x dc s) :=
  endsByTable_key_skip (!·) rfl rfl (by cases h : keyOfReg s x <;> simp [endPc, h])
    (fun h => by rw [execSknp, h]) (fun k h => by rw [execSknp, h])

/-- A key is pressed exactly where the scan of R114 finds one. -/
theorem anyKeyPressed_eq_isSome_firstKey (s : State) : anyKeyPressed s = s.firstKey.isSome := by
  cases h : s.firstKey with
  | none =>
    have hk := State.firstKey_none.mp h
    exact List.any_eq_false.mpr fun k _ => Bool.eq_false_iff.mp (hk (BitVec.ofFin k))
  | some k => exact List.any_eq_true.mpr ⟨k.toFin, List.mem_finRange _, (State.firstKey_some h).1⟩

theorem execLdVxK_endsByTable (x : Nib) : EndsByTable (.ldVxK x) s (execLdVxK x s) := by
  unfold execLdVxK
  have hk := anyKeyPressed_eq_isSome_firstKey s
  cases h : s.firstKey with
  | none => exact endsByTable_of_complete rfl rfl (by simp [effect, endPc, hk, h]; rfl)
  | some k => exact endsByTable_of_complete rfl rfl (by simp [effect, endPc, hk, h]; rfl)

/-- A block load reads memory, wherever PC is. -/
theorem State.loadRegs_setPc (s : State) (w : Word) (base n : Nat) :
    (s.setPc w).loadRegs base n = (s.loadRegs base n).setPc w := by
  induction n with
  | zero => rfl
  | succ k ih => rw [State.loadRegs, State.loadRegs, ih]; rfl

theorem execLdVxMem_endsByTable (x : Nib) : EndsByTable (.ldVxMem x) s (execLdVxMem x s) :=
  endsByTable_access rfl (by rw [inMemory_iff, blockLength]; omega) 
    (by rw [State.advance, State.loadRegs_setPc, State.loadRegs_eq s]; rfl)

/-! ## Execute, and the whole step -/

variable (i s) in
/-- What `exec` does: the fault of the table, or the effect of the instruction. -/
theorem exec_endsByTable : EndsByTable i s (exec i s) := by
  cases i
  case ret dc => exact execRet_endsByTable dc
  case call nnn => exact execCall_endsByTable nnn
  case jp nnn => exact endsByTable_of_complete rfl rfl (by rw [zextImm_eq]; rfl)
  case seImm | sneImm | seReg | sneReg => exact endsByTable_skip rfl rfl (by simp [endPc])
  case skp x dc => exact execSkp_endsByTable x dc
  case sknp x dc => exact execSknp_endsByTable x dc
  case ldVxK x => exact execLdVxK_endsByTable x
  case ldVxMem x => exact execLdVxMem_endsByTable x
  case drw | ldBVx => exact endsByTable_access rfl (by rw [inMemory_iff]; omega) rfl
  case ldMemVx => exact endsByTable_access rfl (by rw [inMemory_iff, blockLength]; omega) rfl
  all_goals exact endsByTable_of_complete rfl rfl rfl

/-- A fault's code is not the answer Ok (R120, R130). -/
theorem execFault_kind_ne_zero {kind : BitVec 3} {addr : Word} (h : execFault i s = some (kind, addr)) : kind ≠ 0 := by
  rintro rfl
  cases i <;> simp [execFault] at h

theorem exec_of_execFault_some {kind : BitVec 3} {addr : Word} (hf : execFault i s = some (kind, addr)) :
    exec i s = .next (faulted s kind (encode i) addr) := by
  have h := exec_endsByTable i s
  rwa [EndsByTable, hf] at h

theorem exec_of_execFault_none (hf : execFault i s = none) : exec i s = .next (completed i s) := by
  have h := exec_endsByTable i s
  rwa [EndsByTable, hf] at h

/-- A next state of `exec`: the fault of the table taken, or the effect completed. -/
theorem exec_cases {t : State} (h : exec i s = .next t) :
    (∃ kind addr, kind ≠ 0 ∧ t = faulted s kind (encode i) addr) ∨ (execFault i s = none ∧ t = completed i s) := by
  cases hf : execFault i s with
  | none => exact .inr ⟨rfl, Host.Outcome.next.inj (h.symm.trans (exec_of_execFault_none hf))⟩
  | some f =>
    exact .inl ⟨_, _, execFault_kind_ne_zero hf, Host.Outcome.next.inj (h.symm.trans (exec_of_execFault_some hf))⟩

/-- A next state of a step: a fault taken, in whatever phase, or the effect of an instruction completed (R60). -/
theorem step_cases {t : State} (h : step s = .next t) :
    (∃ kind w addr, kind ≠ 0 ∧ t = faulted s kind w addr) ∨
      (s.pc.toNat ≤ 4094 ∧ ∃ i, execFault i s = none ∧ t = completed i s) := by
  by_cases hpc : s.pc.toNat ≤ 4094
  case neg =>
    rw [step_of_fetch_fails (by omega), fetchFault_eq] at h
    exact .inl ⟨2, _, _, by decide, (Host.Outcome.next.inj h).symm⟩
  case pos =>
    cases hd : decodeWord (wordAtPc s) with
    | error e =>
      rw [step_of_decode_error hpc hd, invalidOpcodeFault_eq] at h
      exact .inl ⟨1, _, _, by decide, (Host.Outcome.next.inj h).symm⟩
    | ok i =>
      rw [step_of_decode_ok hpc hd] at h
      obtain ⟨kind, addr, hk, ht⟩ | ⟨hf, ht⟩ := exec_cases h
      · exact .inl ⟨kind, _, addr, hk, ht⟩
      · exact .inr ⟨hpc, i, hf, ht⟩

end

/-! ## What an effect leaves alone -/

section
variable (i : Instr) (s : State)

theorem effect_keys : (effect i s).keys = s.keys := by cases i <;> rfl
theorem effect_fault : (effect i s).fault = s.fault := by cases i <;> rfl
theorem effect_config : (effect i s).config = s.config := by cases i <;> rfl

theorem effect_v_of_not_mayWriteReg {r : Nib} (h : ¬ mayWriteReg i r) : (effect i s).v r = s.v r := by
  cases i
  case ldImm | addImm | ldReg | orReg | andReg | xorReg | ldVxDt => exact State.v_setV_of_ne s _ h
  case rnd => exact State.v_setV_of_ne s.consumeRand _ h
  case addReg | sub | shr | subn | shl =>
    obtain ⟨hx, hf⟩ := not_or.mp h
    rw [effect, State.v_flagThenResult, if_neg hx, if_neg hf]
  case drw => exact State.v_setV_of_ne (s.setDisp _) _ h
  case ldVxK x =>
    cases hk : s.firstKey with
    | none => rw [effect, hk]; rfl
    | some k => rw [effect, hk]; exact State.v_setV_of_ne s _ h
  case ldVxMem x =>
    have hr : ¬ r.toNat < blockLength x := fun hlt => h (Nat.le_of_lt_succ hlt)
    exact (State.v_loadRegs s _ _ (Nat.succ_le_of_lt x.isLt) r).trans (if_neg hr)
  all_goals rfl

variable {i}

theorem not_mayWriteReg_of_regs_notMem (h : .regs ∉ partsWritten i) (r : Nib) : ¬ mayWriteReg i r := by
  cases i
  case ldImm | addImm | ldReg | orReg | andReg | xorReg | addReg | sub | shr | subn | shl | rnd | drw | ldVxDt | ldVxK |
      ldVxMem => simp [partsWritten] at h
  all_goals exact id

theorem endPc_of_pc_notMem (h : .pc ∉ partsWritten i) : endPc i s = s.pc + 2 := by
  cases i
  case ret | jp | call | seImm | sneImm | seReg | sneReg | skp | sknp | ldVxK => simp [partsWritten] at h
  all_goals rfl

theorem effect_i_of_index_notMem (h : .index ∉ partsWritten i) : (effect i s).i = s.i := by
  cases i
  case ldI | ldIV0 | addIVx | ldFVx | ldMemVx | ldVxMem => simp [partsWritten] at h
  all_goals rfl

theorem effect_stack_of_stack_notMem (h : .stack ∉ partsWritten i) :
    (effect i s).stack = s.stack ∧ (effect i s).sp = s.sp := by
  cases i
  case ret | call => simp [partsWritten] at h
  all_goals exact ⟨rfl, rfl⟩

theorem effect_disp_of_display_notMem (h : .display ∉ partsWritten i) : (effect i s).disp = s.disp := by
  cases i
  case cls | drw => simp [partsWritten] at h
  all_goals rfl

theorem effect_byte_of_memory_notMem (h : .memory ∉ partsWritten i) (a : Nat) : (effect i s).byte a = s.byte a := by
  cases i
  case ldBVx | ldMemVx => simp [partsWritten] at h
  all_goals rfl

theorem effect_timers_of_timers_notMem (h : .timers ∉ partsWritten i) :
    (effect i s).dt = s.dt ∧ (effect i s).st = s.st := by
  cases i
  case ldDtVx | ldStVx => simp [partsWritten] at h
  all_goals exact ⟨rfl, rfl⟩

theorem effect_rand_of_rand_notMem (h : .rand ∉ partsWritten i) : (effect i s).rand = s.rand := by
  cases i
  case rnd => simp [partsWritten] at h
  all_goals rfl

variable (i) in
/-- A completed cycle writes only the parts the "written by" column of R10 gives its instruction. -/
theorem completed_writing : CompletesWriting (partsWritten i) s (completed i s) := by
  refine complete_writing _ s _ (effect_keys i s) (effect_fault i s) (effect_config i s) fun p hp => ?_
  cases p with
  | regs => exact fun r => effect_v_of_not_mayWriteReg i s (not_mayWriteReg_of_regs_notMem hp r)
  | index => exact effect_i_of_index_notMem s hp
  | pc => exact endPc_of_pc_notMem s hp
  | stack => exact effect_stack_of_stack_notMem s hp
  | display => exact effect_disp_of_display_notMem s hp
  | memory => exact effect_byte_of_memory_notMem s hp
  | timers => exact effect_timers_of_timers_notMem s hp
  | rand => exact effect_rand_of_rand_notMem s hp

end
end Sys2Proof.Machine
end

section
/-!
A word is the encoding of what it decodes to: table by table, the selectors of the row and the fields are the word (R46, R48).
-/

namespace Sys2Proof

section
variable {w : Word} {op n : Nib} {nn : Byte} {i : Instr}

theorem wordNNN_of_fields (hop : opField w = op) : wordNNN op (nnnField w) = w := by
  rw [← hop, wordNNN_fields]

theorem wordXNN_of_fields (hop : opField w = op) (hnn : nnField w = nn) : wordXNN op (xField w) nn = w := by
  rw [← hop, ← hnn, wordXNN_fields]

theorem wordXYN_of_fields (hop : opField w = op) (hn : nField w = n) : wordXYN op (xField w) (yField w) n = w := by
  rw [← hop, ← hn, wordXYN_fields]

theorem wordMid_of_fields (hop : opField w = op) (hn : nField w = n) : wordMid op (midField w) n = w := by
  rw [← hop, ← hn, wordMid_fields]

theorem encode_of_table0 (hop : opField w = 0x0#4) (h : table0 w = .ok i) : encode i = w := by
  unfold table0 at h
  split at h <;> cases h
  all_goals exact wordMid_of_fields hop ‹_›

theorem encode_of_table8 (hop : opField w = 0x8#4) (h : table8 w = .ok i) : encode i = w := by
  unfold table8 at h
  split at h <;> cases h
  all_goals exact wordXYN_of_fields hop ‹_›

theorem encode_of_tableE (hop : opField w = 0xE#4) (h : tableE w = .ok i) : encode i = w := by
  unfold tableE at h
  split at h <;> cases h
  all_goals exact wordXYN_of_fields hop ‹_›

theorem encode_of_tableF (hop : opField w = 0xF#4) (h : tableF w = .ok i) : encode i = w := by
  unfold tableF at h
  split at h <;> cases h
  all_goals exact wordXNN_of_fields hop ‹_›

/-- The primary table: its rows are read by their operand format, its groups by their own tables. -/
theorem encode_of_decodeWord (h : decodeWord w = .ok i) : encode i = w := by
  unfold decodeWord at h
  split at h
  case h_1 hop => exact encode_of_table0 hop h
  case h_9 hop => exact encode_of_table8 hop h
  case h_15 hop => exact encode_of_tableE hop h
  case h_16 hop => exact encode_of_tableF hop h
  case h_2 hop | h_3 hop | h_11 hop | h_12 hop => cases h; exact wordNNN_of_fields hop
  case h_4 hop | h_5 hop | h_7 hop | h_8 hop | h_13 hop => cases h; exact wordXNN_of_fields hop rfl
  case h_6 hop | h_10 hop | h_14 hop => cases h; exact wordXYN_of_fields hop rfl
  case h_17 => cases h

end
end Sys2Proof
end

section
/-!
The statements about the state (spec/10_state.md): what an instruction and a whole step leave unchanged, where PC and the
stack can be, and what don't-care bits and the random port can reach.
-/

namespace Sys2Proof.Machine

/-! ## PC and the occupied slots stay bounded -/

section
variable {i : Instr} {s : State}

theorem sp_pos_of_execFault_ret {dc : BitVec 8} (hf : execFault (.ret dc) s = none) : 0 < s.sp.val := by
  by_contra h
  have h0 : s.sp = 0 := Fin.ext (by simpa using h)
  simp [execFault, h0] at hf

/-- From an address that can be fetched, PC goes on by at most 4, jumps to a 12-bit address, or returns to an occupied
slot's (R15). -/
theorem endPc_le (hb : s.PcBounded) (hpc : s.pc.toNat ≤ 4094) (hf : execFault i s = none) : (endPc i s).toNat ≤ 4098 := by
  have h2 : (s.pc + 2).toNat ≤ 4098 := by bv_omega
  have h4 : (s.pc + 4).toNat ≤ 4098 := by bv_omega
  cases i
  case ret dc =>
    have hsp := sp_pos_of_execFault_ret hf
    obtain ⟨-, hslots⟩ := hb
    obtain ⟨-, htop⟩ := hslots (s.sp.val - 1) (by omega) (by omega)
    have hlen : s.sp.val - 1 < s.stack.toList.length := by simp; omega
    rw [endPc, List.getD_eq_getElem _ _ hlen, Vector.getElem_toList]
    omega
  case jp nnn | call nnn =>
    have := nnn.isLt
    rw [endPc, BitVec.toNat_ofNat]
    omega
  case ldVxK => rw [endPc]; split <;> omega
  case seImm | sneImm | seReg | sneReg | skp | sknp => rw [endPc]; split <;> assumption
  all_goals exact h2

/-- An occupied slot is one that was occupied, or the npc that CALL has pushed (R19, R73). -/
theorem effect_stack_cases {k : Nat} (hk : k < 16) (hocc : k < (effect i s).sp.val) :
    (k < s.sp.val ∧ (effect i s).stack[k] = s.stack[k]) ∨ (effect i s).stack[k] = s.pc + 2 := by
  cases i
  case ret => exact .inl ⟨Nat.lt_of_lt_of_le hocc (Nat.sub_le _ _), rfl⟩
  case call nnn =>
    have hget : (effect (.call nnn) s).stack[k] = if s.sp.val = k then s.pc + 2 else s.stack[k] :=
      Vector.getElem_setIfInBounds hk
    have hlt : k < (s.sp.val + 1) % 17 := hocc
    by_cases h : s.sp.val = k
    · exact .inr (hget.trans (if_pos h))
    · exact .inl ⟨by omega, hget.trans (if_neg h)⟩
  all_goals exact .inl ⟨hocc, rfl⟩

theorem completed_pcBounded (hb : s.PcBounded) (hpc : s.pc.toNat ≤ 4094) (hf : execFault i s = none) :
    (completed i s).PcBounded := by
  refine ⟨endPc_le hb hpc hf, fun k hk hocc => ?_⟩
  have hget : (completed i s).stack[k] = (effect i s).stack[k] := rfl
  obtain ⟨hold, heq⟩ | heq := effect_stack_cases hk hocc
  · rw [hget, heq]
    exact hb.2 k hk hold
  · rw [hget, heq]
    constructor <;> bv_omega

end

/-- Settles O20: a fault leaves PC and the stack alone, and a completed cycle began at an address that can be fetched. -/
theorem stepKeepsPcBounded : Obligations.StepKeepsPcBounded := by
  intro s t hb h
  obtain ⟨kind, w, addr, -, rfl⟩ | ⟨hpc, i, hf, rfl⟩ := step_cases h
  · exact hb
  · exact completed_pcBounded hb hpc hf

/-! ## Encoding what was decoded -/

/-- Settles O2, table by table. -/
theorem encodeAfterDecode : Obligations.EncodeAfterDecode := fun _ _ h => encode_of_decodeWord h

/-! ## Don't-care bits -/

/-- Two instructions with one fault, one effect and one end of PC end alike, but for the word FAULT records (R24). -/
theorem exec_differs_in_faultInstr {i i' : Instr} {s : State} (hf : execFault i' s = execFault i s)
    (he : effect i' s = effect i s) (hpc : endPc i' s = endPc i s) :
    ∃ t t', exec i s = .next t ∧ exec i' s = .next t' ∧
      t' = { t with fault := { t.fault with instr := t'.fault.instr } } ∧ (t.status = 0 → t' = t) := by
  cases hfi : execFault i s with
  | none =>
    have hc : completed i' s = completed i s := by rw [completed, completed, he, hpc]
    exact ⟨_, _, exec_of_execFault_none hfi, exec_of_execFault_none (hf.trans hfi), by rw [hc], fun _ => hc⟩
  | some f =>
    exact ⟨_, _, exec_of_execFault_some hfi, exec_of_execFault_some (hf.trans hfi), rfl,
      fun h0 => absurd h0 (execFault_kind_ne_zero hfi)⟩

/-- Settles O6: the don't-care bits are in the encoding alone, which only a fault records. -/
theorem dontCareBitsChooseNothing : Obligations.DontCareBitsChooseNothing :=
  ⟨fun _ _ _ => rfl, fun _ _ _ _ _ => rfl, fun _ _ _ _ _ => rfl, fun _ _ _ => exec_differs_in_faultInstr rfl rfl rfl,
    fun _ _ _ _ => exec_differs_in_faultInstr rfl rfl rfl, fun _ _ _ _ => exec_differs_in_faultInstr rfl rfl rfl⟩

/-! ## Frames -/

/-- Settles O10, from what `exec` does and the frame of a completed cycle. -/
theorem everyInstructionFaultsOrKeepsItsFrame : Obligations.EveryInstructionFaultsOrKeepsItsFrame := by
  intro i s
  split
  case h_1 hf => exact exec_of_execFault_some hf
  case h_2 hf => exact ⟨_, exec_of_execFault_none hf, completed_writing i s⟩

/-- Settles O11: a fault changes no register, and an effect only those `mayWriteReg` names. -/
theorem onlyNamedRegistersChange : Obligations.OnlyNamedRegistersChange := by
  intro i s t h r hr
  obtain ⟨kind, addr, -, rfl⟩ | ⟨-, rfl⟩ := exec_cases h
  · rfl
  · exact effect_v_of_not_mayWriteReg i s hr

/-- Settles O13: a fault answers its kind, which is not 0, and leaves PC; a completed cycle answers 0. -/
theorem pcAtTheEndOfEveryCycle : Obligations.PcAtTheEndOfEveryCycle := by
  refine ⟨fun i s t h => ?_, fun s t h hstatus => ?_⟩
  · obtain ⟨kind, addr, hk, rfl⟩ | ⟨-, rfl⟩ := exec_cases h
    · exact (if_neg hk).symm
    · rfl
  · obtain ⟨kind, w, addr, -, rfl⟩ | ⟨-, i, -, rfl⟩ := step_cases h
    · rfl
    · exact absurd rfl hstatus

/-- Settles O15: every instruction but RND hands the port through, and RND reads of it only the byte it presents. -/
theorem randomByteReachesOnlyRnd : Obligations.RandomByteReachesOnlyRnd := by
  refine ⟨fun i s r hi => ?_, fun x nn s r hbyte => ?_⟩
  · obtain ⟨t, ht, -, hrand, hother⟩ := exec_handsPortThrough s { status := s.status, rand := r } i hi
    exact ⟨t, ht, hrand, hother⟩
  · refine ⟨_, _, exec_rnd_eq x nn s, exec_rnd_eq x nn _, ?_⟩
    rw [hbyte]; rfl

/-- Settles O16: neither a fault nor an effect writes KEY (R23). -/
theorem noCycleChangesKeys : Obligations.NoCycleChangesKeys := by
  intro s t h
  obtain ⟨kind, w, addr, -, rfl⟩ | ⟨-, i, -, rfl⟩ := step_cases h
  · rfl
  · exact effect_keys i s

end Sys2Proof.Machine
end

section
/-!
The statements about memory (spec/20_memory.md): which bytes a cycle stores, that memory stays canonical, what a fetch reads,
and the three instructions that move bytes between registers and memory at I.
-/

namespace Sys2Proof.Machine

/-! ## What the instructions that move bytes do -/

section
variable (x : Nib) (s : State)

@[simp] theorem completed_byte (i : Instr) (a : Nat) : (completed i s).byte a = (effect i s).byte a := rfl
@[simp] theorem completed_v (i : Instr) (r : Nib) : (completed i s).v r = (effect i s).v r := rfl
@[simp] theorem completed_i (i : Instr) : (completed i s).i = (effect i s).i := rfl

/-- I after a block move, in the integers (R101, R102). -/
theorem add_blockLength_toNat (w : Word) : (w + BitVec.ofNat 16 (blockLength x)).toNat = (w.toNat + x.toNat + 1) % 65536 := by
  rw [BitVec.toNat_add, BitVec.toNat_ofNat, blockLength]
  omega

/-- Memory after LD_B_VX (R100). -/
theorem effect_ldBVx_byte (a : Nat) :
    (effect (.ldBVx x) s).byte a =
      if s.i.toNat ≤ a ∧ a < s.i.toNat + 3 then (bcdDigits (s.v x)).getD (a - s.i.toNat) 0 else s.byte a :=
  State.byte_storeBytes s _ _ a

theorem effect_ldBVx_digits :
    (effect (.ldBVx x) s).byte s.i.toNat = BitVec.ofNat 8 ((s.v x).toNat / 100) ∧
      (effect (.ldBVx x) s).byte (s.i.toNat + 1) = BitVec.ofNat 8 ((s.v x).toNat / 10 % 10) ∧
      (effect (.ldBVx x) s).byte (s.i.toNat + 2) = BitVec.ofNat 8 ((s.v x).toNat % 10) := by
  simp [effect_ldBVx_byte, bcdDigits]

/-- Memory after LD_MEM_VX (R101). -/
theorem effect_ldMemVx_byte (a : Nat) :
    (effect (.ldMemVx x) s).byte a =
      if s.i.toNat ≤ a ∧ a ≤ s.i.toNat + x.toNat then s.v (BitVec.ofNat 4 (a - s.i.toNat)) else s.byte a := by
  refine (State.byte_storeBytes s _ _ a).trans ?_
  rw [State.regBlock_length, blockLength, ← Nat.add_assoc]
  simp only [Nat.lt_succ_iff]
  split_ifs with h
  · exact State.regBlock_getD s (by omega)
  · rfl

/-- The registers after LD_VX_MEM (R102). -/
theorem effect_ldVxMem_v (r : Nib) :
    (effect (.ldVxMem x) s).v r = if r.toNat ≤ x.toNat then s.byte (s.i.toNat + r.toNat) else s.v r := by
  refine (State.v_loadRegs s _ _ (Nat.succ_le_of_lt x.isLt) r).trans ?_
  simp only [Nat.lt_succ_iff]

end

/-! ## Only the stored bytes change -/

theorem effect_byte_of_not_storesTo {i : Instr} {s : State} {a : Nat} (h : ¬ storesTo i s a) :
    (effect i s).byte a = s.byte a := by
  cases i
  case ldBVx x => exact (effect_ldBVx_byte x s a).trans (if_neg fun ha => h ⟨ha.1, by omega⟩)
  case ldMemVx x => exact (effect_ldMemVx_byte x s a).trans (if_neg h)
  all_goals rfl

/-- Settles O12: a fault changes no byte, and an effect only those `storesTo` names. -/
theorem onlyStoredBytesChange : Obligations.OnlyStoredBytesChange := by
  intro i s t a h ha
  obtain ⟨kind, addr, -, rfl⟩ | ⟨-, rfl⟩ := exec_cases h
  · rfl
  · exact effect_byte_of_not_storesTo ha

/-! ## Memory stays canonical -/

/-- An effect keeps memory canonical: the range of a store has been checked before (R36). -/
theorem effect_mem_wf {i : Instr} {s : State} (h : Memory.wf s.config s.mem = true) (hf : execFault i s = none) :
    Memory.wf s.config (effect i s).mem = true := by
  cases i
  case ldBVx x =>
    have hrange : s.i.toNat + 2 ≤ 4095 := by simpa [execFault] using hf
    exact Memory.wf_writeBytes h (Nat.succ_le_succ hrange)
  case ldMemVx x =>
    have hrange : s.i.toNat + x.toNat ≤ 4095 := by simpa [execFault] using hf
    exact Memory.wf_writeBytes h (by rw [State.regBlock_length]; exact Nat.succ_le_succ hrange)
  all_goals exact h

/-- Settles O19: a fault leaves memory alone, and a completed cycle has stored inside the address space or not at all. -/
theorem stepKeepsMemoryCanonical : Obligations.StepKeepsMemoryCanonical := by
  intro s t hwf h
  obtain ⟨kind, w, addr, -, rfl⟩ | ⟨-, i, hf, rfl⟩ := step_cases h
  · exact hwf
  · have hconfig : (completed i s).config = s.config := effect_config i s
    rw [hconfig]
    exact effect_mem_wf hwf hf

/-! ## Fetch -/

/-- Settles O8: the fetched word is the two bytes at PC joined, and a fetch that leaves memory takes its fault. -/
theorem fetchReadsBigEndianOrFaults : Obligations.FetchReadsBigEndianOrFaults := by
  refine ⟨fun s hpc => ⟨_, if_pos hpc, ?_⟩, fun s hpc => ?_⟩
  · rw [joinBytes_toNat, Nat.mul_comm]
  · rw [step_of_fetch_fails (by omega), fetchFault_eq, outOfRangeAddr]

/-! ## Moves between registers and memory -/

/-- Settles O40: the range fits and the three digits are stored, or the fault of the table is taken. -/
theorem bcdStoresThreeDigitsOrFaults : Obligations.BcdStoresThreeDigitsOrFaults := by
  intro x s
  refine ⟨fun hrange => ?_, fun hrange => exec_of_execFault_some (if_pos hrange)⟩
  have hexec : exec (.ldBVx x) s = .next (completed (.ldBVx x) s) := exec_of_execFault_none (if_neg (by omega))
  obtain ⟨hhundreds, htens, hunits⟩ := effect_ldBVx_digits x s
  have hkept : ∀ a, (a < s.i.toNat ∨ s.i.toNat + 2 < a) → (completed (.ldBVx x) s).byte a = s.byte a :=
    fun a ha => effect_byte_of_not_storesTo fun hs : _ ∧ _ => by omega
  refine ⟨_, hexec, completed_writing (.ldBVx x) s, ?hundreds, ?tens, ?units, hkept⟩
  all_goals
    have hbyte := (s.v x).isLt
    rw [completed_byte]
    simp only [hhundreds, htens, hunits, BitVec.toNat_ofNat]
    omega

/-- Settles O41: the range fits and V0 to VX are stored, or the fault of the table is taken. -/
theorem registerDumpOrFaults : Obligations.RegisterDumpOrFaults := by
  intro x s
  refine ⟨fun hrange => ?_, fun hrange => exec_of_execFault_some (if_pos hrange)⟩
  have hexec : exec (.ldMemVx x) s = .next (completed (.ldMemVx x) s) := exec_of_execFault_none (if_neg (by omega))
  refine ⟨_, hexec, completed_writing (.ldMemVx x) s, fun k hk => ?_, fun a ha => ?_, add_blockLength_toNat x s.i⟩
  · rw [completed_byte, effect_ldMemVx_byte, if_pos (by omega)]
    simp
  · exact effect_byte_of_not_storesTo fun hs : _ ∧ _ => by omega

/-- Settles O42: the range fits and V0 to VX are loaded, or the fault of the table is taken. -/
theorem registerLoadOrFaults : Obligations.RegisterLoadOrFaults := by
  intro x s
  refine ⟨fun hrange => ?_, fun hrange => exec_of_execFault_some (if_pos hrange)⟩
  have hexec : exec (.ldVxMem x) s = .next (completed (.ldVxMem x) s) := exec_of_execFault_none (if_neg (by omega))
  exact ⟨_, hexec, completed_writing (.ldVxMem x) s, effect_ldVxMem_v x s, add_blockLength_toNat x s.i⟩

end Sys2Proof.Machine
end

section
/-!
The statements about the encoding (spec/30_encoding.md): the decoder reads back every encoded instruction, so a word that is an
encoding decodes to its instruction; what the decoder rejects is found table by table.
-/

namespace Sys2Proof

/-! ## The decoder on encoded words -/

section
variable {i : Instr} {op n : Nib} {nn : Byte} {k : Nat}

/-- By operand format: the selectors of the built word choose the row, and its fields are the operands (R46, R48). -/
theorem decodeWord_encode (i : Instr) : decodeWord (encode i) = .ok i := by
  cases i
  case cls | ret =>
    simp [encode, decodeWord, table0, opField_wordMid, midField_wordMid, nField_wordMid]
  case jp | call | ldI | ldIV0 =>
    simp [encode, decodeWord, opField_wordNNN, nnnField_wordNNN]
  case seImm | sneImm | ldImm | addImm | rnd | ldVxDt | ldVxK | ldDtVx | ldStVx | addIVx | ldFVx | ldBVx | ldMemVx |
      ldVxMem =>
    simp [encode, decodeWord, tableF, opField_wordXNN, xField_wordXNN, nnField_wordXNN]
  case seReg | sneReg | drw | ldReg | orReg | andReg | xorReg | addReg | sub | shr | subn | shl | skp | sknp =>
    simp [encode, decodeWord, table8, tableE, opField_wordXYN, xField_wordXYN, yField_wordXYN, nField_wordXYN]

theorem decodeWord_ofNat_of_encode_toNat (h : (encode i).toNat = k) : decodeWord (BitVec.ofNat 16 k) = .ok i := by
  rw [← h, BitVec.ofNat_toNat, BitVec.setWidth_eq, decodeWord_encode]

/-! ## Rows of the tables as numbers: the row's number, plus its fields at their places -/

theorem decodeWord_ofNat_nnn {nnn : Imm12} (hi : encode i = wordNNN op nnn) (hk : op.toNat * 4096 = k) :
    decodeWord (BitVec.ofNat 16 (k + nnn.toNat)) = .ok i :=
  decodeWord_ofNat_of_encode_toNat (by rw [hi, wordNNN_toNat, hk])

theorem decodeWord_ofNat_xnn {x : Nib} (hi : encode i = wordXNN op x nn) (hk : op.toNat * 4096 = k) :
    decodeWord (BitVec.ofNat 16 (k + 256 * x.toNat + nn.toNat)) = .ok i :=
  decodeWord_ofNat_of_encode_toNat (by rw [hi, wordXNN_toNat, hk, Nat.mul_comm x.toNat])

theorem decodeWord_ofNat_xyn {x y : Nib} (hi : encode i = wordXYN op x y n) (hk : op.toNat * 4096 = k) :
    decodeWord (BitVec.ofNat 16 (k + 256 * x.toNat + 16 * y.toNat + n.toNat)) = .ok i :=
  decodeWord_ofNat_of_encode_toNat (by rw [hi, wordXYN_toNat, hk, Nat.mul_comm x.toNat, Nat.mul_comm y.toNat])

theorem decodeWord_ofNat_mid {mid : Byte} (hi : encode i = wordMid op mid n) (hk : op.toNat * 4096 + n.toNat = k) :
    decodeWord (BitVec.ofNat 16 (k + 16 * mid.toNat)) = .ok i :=
  decodeWord_ofNat_of_encode_toNat (by rw [hi, wordMid_toNat, ← hk]; ring)

/-- The low nibble is a selector, and so part of the row's number. -/
theorem decodeWord_ofNat_xy {x y : Nib} (hi : encode i = wordXYN op x y n) (hk : op.toNat * 4096 + n.toNat = k) :
    decodeWord (BitVec.ofNat 16 (k + 256 * x.toNat + 16 * y.toNat)) = .ok i :=
  decodeWord_ofNat_of_encode_toNat (by rw [hi, wordXYN_toNat, ← hk]; ring)

/-- The low byte is a selector, and so part of the row's number. -/
theorem decodeWord_ofNat_x {x : Nib} (hi : encode i = wordXNN op x nn) (hk : op.toNat * 4096 + nn.toNat = k) :
    decodeWord (BitVec.ofNat 16 (k + 256 * x.toNat)) = .ok i :=
  decodeWord_ofNat_of_encode_toNat (by rw [hi, wordXNN_toNat, ← hk]; ring)

end

/-! ## The words that the decoder rejects -/

section
variable {w : Word} {e : DecodeError}

theorem opField_eq_iff {op : Nib} : opField w = op ↔ w.toNat / 4096 = op.toNat := by
  rw [← BitVec.toNat_inj, opField_toNat, Nat.mod_eq_of_lt (by omega)]

theorem nField_eq_iff {n : Nib} : nField w = n ↔ w.toNat % 16 = n.toNat := by
  rw [← BitVec.toNat_inj, nField_toNat]

theorem nnField_eq_iff {nn : Byte} : nnField w = nn ↔ w.toNat % 256 = nn.toNat := by
  rw [← BitVec.toNat_inj, nnField_toNat]

theorem table0_eq_error_iff :
    table0 w = .error e ↔ (w.toNat % 16 ≠ 0 ∧ w.toNat % 16 ≠ 14) ∧ e = .invalidOpcode w := by
  unfold table0
  split <;> simp_all [nField_eq_iff, eq_comm (a := e)]

theorem table8_eq_error_iff :
    table8 w = .error e ↔ (8 ≤ w.toNat % 16 ∧ w.toNat % 16 ≠ 14) ∧ e = .invalidOpcode w := by
  unfold table8
  split
  case h_10 =>
    simp_all [nField_eq_iff, eq_comm (a := e)]
    omega
  all_goals simp_all [nField_eq_iff]

theorem tableE_eq_error_iff :
    tableE w = .error e ↔ (w.toNat % 16 ≠ 1 ∧ w.toNat % 16 ≠ 14) ∧ e = .invalidOpcode w := by
  unfold tableE
  split <;> simp_all [nField_eq_iff, eq_comm (a := e)]

theorem tableF_eq_error_iff :
    tableF w = .error e ↔
      w.toNat % 256 ∉ [0x07, 0x0A, 0x15, 0x18, 0x1E, 0x29, 0x33, 0x55, 0x65] ∧ e = .invalidOpcode w := by
  unfold tableF
  split <;> simp_all [nnField_eq_iff, eq_comm (a := e)]

/-- The four groups have their own tables, every other row of the primary table is mapped, and there is a row for each
nibble (R48, R49). -/
theorem decodeWord_eq_error_iff :
    decodeWord w = .error e ↔
      opField w = 0x0#4 ∧ table0 w = .error e ∨ opField w = 0x8#4 ∧ table8 w = .error e ∨
        opField w = 0xE#4 ∧ tableE w = .error e ∨ opField w = 0xF#4 ∧ tableF w = .error e := by
  unfold decodeWord
  split
  case h_17 =>
    exfalso
    have hop := (opField w).isLt
    simp_all [← BitVec.toNat_inj]
    omega
  all_goals simp [*]

/-- R55's four classes of invalid words, as numbers. -/
theorem decodeWord_eq_error_iff_toNat :
    decodeWord w = .error e ↔
      ((w.toNat / 4096 = 0 ∧ w.toNat % 16 ≠ 0 ∧ w.toNat % 16 ≠ 14) ∨
        (w.toNat / 4096 = 8 ∧ 8 ≤ w.toNat % 16 ∧ w.toNat % 16 ≠ 14) ∨
        (w.toNat / 4096 = 14 ∧ w.toNat % 16 ≠ 1 ∧ w.toNat % 16 ≠ 14) ∨
        (w.toNat / 4096 = 15 ∧ w.toNat % 256 ∉ [0x07, 0x0A, 0x15, 0x18, 0x1E, 0x29, 0x33, 0x55, 0x65])) ∧
      e = .invalidOpcode w := by
  rw [decodeWord_eq_error_iff, table0_eq_error_iff, table8_eq_error_iff, tableE_eq_error_iff, tableF_eq_error_iff]
  simp only [opField_eq_iff, or_and_right, and_assoc]
  rfl

end
end Sys2Proof
end

section
/-!
The statements about the decoder and the encoder, settled by the lemmas above.
-/

namespace Sys2Proof.Machine

/-- Settles O1, by the operand formats. -/
theorem decodeAfterEncode : Obligations.DecodeAfterEncode := decodeWord_encode

/-- Settles O3: each number is the word of its row's instruction, in the format `encode` gives it. -/
theorem tableWordsDecode : Obligations.TableWordsDecode := fun _ _ _ _ _ _ =>
  ⟨⟨decodeWord_ofNat_nnn rfl rfl, decodeWord_ofNat_nnn rfl rfl, decodeWord_ofNat_xnn rfl rfl, decodeWord_ofNat_xnn rfl rfl,
      decodeWord_ofNat_xyn rfl rfl, decodeWord_ofNat_xnn rfl rfl, decodeWord_ofNat_xnn rfl rfl, decodeWord_ofNat_xyn rfl rfl,
      decodeWord_ofNat_nnn rfl rfl, decodeWord_ofNat_nnn rfl rfl, decodeWord_ofNat_xnn rfl rfl, decodeWord_ofNat_xyn rfl rfl⟩,
    ⟨decodeWord_ofNat_mid rfl rfl, decodeWord_ofNat_mid rfl rfl⟩,
    ⟨decodeWord_ofNat_xy rfl rfl, decodeWord_ofNat_xy rfl rfl, decodeWord_ofNat_xy rfl rfl, decodeWord_ofNat_xy rfl rfl,
      decodeWord_ofNat_xy rfl rfl, decodeWord_ofNat_xy rfl rfl, decodeWord_ofNat_xy rfl rfl, decodeWord_ofNat_xy rfl rfl,
      decodeWord_ofNat_xy rfl rfl⟩,
    ⟨decodeWord_ofNat_xy rfl rfl, decodeWord_ofNat_xy rfl rfl⟩,
    ⟨decodeWord_ofNat_x rfl rfl, decodeWord_ofNat_x rfl rfl, decodeWord_ofNat_x rfl rfl, decodeWord_ofNat_x rfl rfl,
      decodeWord_ofNat_x rfl rfl, decodeWord_ofNat_x rfl rfl, decodeWord_ofNat_x rfl rfl, decodeWord_ofNat_x rfl rfl,
      decodeWord_ofNat_x rfl rfl⟩⟩

/-- Settles O5: the four classes of R55 are the four groups' unmapped slots, and each table names the word it rejects. -/
theorem invalidWordsExactly : Obligations.InvalidWordsExactly := fun _ =>
  ⟨decodeWord_eq_error_iff_toNat.trans (and_iff_left rfl), fun _ h => (decodeWord_eq_error_iff_toNat.mp h).2⟩

/-- Settles O4: the valid words are the encodings of their instructions, and the two others evaluate to a rejection. -/
theorem specExampleWordsDecode : Obligations.SpecExampleWordsDecode :=
  ⟨decodeWord_encode (.cls 0x0E), decodeWord_encode (.cls 0x00), decodeWord_encode (.ret 0xFF),
    decodeWord_encode (.jp 0x234), decodeWord_encode (.call 0x300), decodeWord_encode (.seImm 3 0x2A),
    decodeWord_encode (.seReg 1 2 1), decodeWord_encode (.ldImm 0xA 0x3D), decodeWord_encode (.addReg 0 1),
    decodeWord_encode (.shl 0 1), decodeWord_encode (.ldI 0x2F0), decodeWord_encode (.rnd 3 0x0F),
    decodeWord_encode (.drw 0 1 1), decodeWord_encode (.skp 5 9), decodeWord_encode (.sknp 3 0xF),
    decodeWord_encode (.ldVxK 4), decodeWord_encode (.ldMemVx 2), by decide, by decide⟩

end Sys2Proof.Machine
end

section
/-!
The statements about the cycle (spec/40_cycle.md): a step is the fetch's or the decode's fault, or the decoded instruction's
`exec` and nothing else; and the timers tick once from what its effect leaves.
-/

namespace Sys2Proof.Machine

section
variable {i : Instr} {s : State}

/-! ## The fault a cycle raises, phase by phase (R136) -/

theorem cycleFault_of_fetch_fails (h : 4094 < s.pc.toNat) : cycleFault s = some (2, 0, outOfRangeAddr s.pc) := if_pos h

theorem cycleFault_of_decode_error {e : DecodeError} (h : s.pc.toNat ≤ 4094) (hd : decodeWord (wordAtPc s) = .error e) :
    cycleFault s = some (1, wordAtPc s, 0) := by
  rw [cycleFault, if_neg (by omega), hd]

theorem cycleFault_of_decode_ok (h : s.pc.toNat ≤ 4094) (hd : decodeWord (wordAtPc s) = .ok i) :
    cycleFault s = (execFault i s).map (fun f => (f.1, wordAtPc s, f.2)) := by
  rw [cycleFault, if_neg (by omega), hd]

/-! ## The end of a completed cycle -/

variable (i s) in
/-- The timers tick once, from the values the effect leaves (R66). -/
theorem completed_timers_toNat :
    (completed i s).dt.toNat = (effect i s).dt.toNat - 1 ∧ (completed i s).st.toNat = (effect i s).st.toNat - 1 :=
  ⟨tick_toNat _, tick_toNat _⟩

end

/-! ## The statements -/

/-- Settles O9, by the phase that faults. -/
theorem everyCycleIsOkOrItsOneFault : Obligations.EveryCycleIsOkOrItsOneFault := by
  intro s
  by_cases hpc : s.pc.toNat ≤ 4094
  case neg =>
    rw [cycleFault_of_fetch_fails (by omega)]
    exact (step_of_fetch_fails (by omega)).trans (fetchFault_eq s)
  case pos =>
    cases hd : decodeWord (wordAtPc s) with
    | error e =>
      rw [cycleFault_of_decode_error hpc hd]
      exact (step_of_decode_error hpc hd).trans (invalidOpcodeFault_eq s _)
    | ok i =>
      rw [cycleFault_of_decode_ok hpc hd, step_of_decode_ok hpc hd, ← encode_of_decodeWord hd]
      cases hf : execFault i s with
      | none => exact ⟨_, exec_of_execFault_none hf, rfl, effect_fault i s⟩
      | some f => exact exec_of_execFault_some hf

/-- Settles O14: a faulting cycle does not answer Ok, and the effect of no instruction but LD_DT_VX writes DT, and of none
but LD_ST_VX writes ST. -/
theorem timersTickOncePerCompletedCycle : Obligations.TimersTickOncePerCompletedCycle := by
  intro i s t h hstatus
  obtain ⟨kind, addr, hk, rfl⟩ | ⟨-, rfl⟩ := exec_cases h
  · exact absurd hstatus hk
  · obtain ⟨hdt, hst⟩ := completed_timers_toNat i s
    rw [hdt, hst]
    cases i <;> exact ⟨rfl, rfl⟩

/-- Settles O7: the word at PC is fetched, decoded and executed. -/
theorem stepRunsDecodedInstruction : Obligations.StepRunsDecodedInstruction := fun _ _ => step_of_decode_ok

/-- Settles O52: neither instruction can fault, and the tick takes one off what the effect leaves. -/
theorem setTimers : Obligations.SetTimers := by
  intro x s
  obtain ⟨hdtOfSetDt, hstOfSetDt⟩ := completed_timers_toNat (.ldDtVx x) s
  obtain ⟨hdtOfSetSt, hstOfSetSt⟩ := completed_timers_toNat (.ldStVx x) s
  exact ⟨⟨_, exec_of_execFault_none rfl, completed_writing (.ldDtVx x) s, hdtOfSetDt, hstOfSetDt⟩,
    ⟨_, exec_of_execFault_none rfl, completed_writing (.ldStVx x) s, hstOfSetSt, hdtOfSetSt⟩⟩

end Sys2Proof.Machine
end

section
/-!
The statements about control flow (spec/41_control_flow.md): where a completed jump, call, return or skip leaves PC and the
stack, and that a jump to its own address goes on being fetched from there.
-/

namespace Sys2Proof.Machine

/-! ## The end of a control transfer -/

section
variable {i : Instr} {s : State}

/-- Where the table names no fault, `exec` completes with the instruction's frame, at the PC of R16's table. -/
theorem exec_completes_at_endPc (hf : execFault i s = none) :
    ∃ t, exec i s = .next t ∧ CompletesWriting (partsWritten i) s t ∧ t.pc = endPc i s :=
  ⟨_, exec_of_execFault_none hf, completed_writing i s, rfl⟩

theorem execFault_call_of_lt (nnn : Imm12) (h : s.sp.val < 16) : execFault (.call nnn) s = none :=
  if_neg fun hfull => by simp [hfull] at h

theorem execFault_ret_of_pos (dc : BitVec 8) (h : 0 < s.sp.val) : execFault (.ret dc) s = none :=
  if_neg fun hempty => by simp [hempty] at h

/-- The target of a JP or CALL, in the integers (R72, R73). -/
theorem ofNat_imm12_toNat (nnn : Imm12) : (BitVec.ofNat 16 nnn.toNat).toNat = nnn.toNat :=
  Nat.mod_eq_of_lt (by omega)

/-- RET's target is the top occupied slot (R71). -/
theorem endPc_ret (dc : BitVec 8) (h : 0 < s.sp.val) : endPc (.ret dc) s = s.stack[s.sp.val - 1]'(by omega) := by
  rw [endPc, List.getD_eq_getElem _ _ (by simp; omega), Vector.getElem_toList]

theorem effect_call_sp (nnn : Imm12) (h : s.sp.val < 16) : (effect (.call nnn) s).sp.val = s.sp.val + 1 :=
  Nat.mod_eq_of_lt (by omega)

theorem effect_call_stack (nnn : Imm12) {k : Nat} (hk : k < 16) :
    (effect (.call nnn) s).stack[k] = if k = s.sp.val then s.pc + 2 else s.stack[k] := by
  rw [effect, Vector.getElem_setIfInBounds hk]
  simp only [eq_comm]

/-! ## A parked program -/

theorem State.Parked.pc_le (h : s.Parked) : s.pc.toNat ≤ 4094 := h.1

/-- An address a fetch can start from fits JP's 12-bit operand. -/
theorem imm12_of_pc_toNat (h : s.pc.toNat ≤ 4094) : (BitVec.ofNat 12 s.pc.toNat).toNat = s.pc.toNat :=
  Nat.mod_eq_of_lt (by omega)

/-- The word of a parked program is a JP to the 12-bit address PC (R160). -/
theorem State.Parked.decodeWord_wordAtPc (h : s.Parked) :
    decodeWord (wordAtPc s) = .ok (.jp (BitVec.ofNat 12 s.pc.toNat)) := by
  obtain ⟨hpc, hword⟩ := h
  have hjp : wordAtPc s = BitVec.ofNat 16 (0x1000 + (BitVec.ofNat 12 s.pc.toNat).toNat) := by
    rw [imm12_of_pc_toNat hpc, ← hword, BitVec.ofNat_toNat, BitVec.setWidth_eq]
  rw [hjp]
  exact decodeWord_ofNat_nnn rfl rfl

theorem endPc_jp_ofNat (h : s.pc.toNat ≤ 4094) : endPc (.jp (BitVec.ofNat 12 s.pc.toNat)) s = s.pc := by
  apply BitVec.eq_of_toNat_eq
  rw [endPc, ofNat_imm12_toNat, imm12_of_pc_toNat h]

/-- Being parked depends on PC and memory alone. -/
theorem State.Parked.congr {t : State} (h : s.Parked) (hpc : t.pc = s.pc) (hbyte : ∀ a, t.byte a = s.byte a) :
    t.Parked := by
  simpa only [State.Parked, wordAtPc, hpc, hbyte] using h

end

/-! ## The statements -/

/-- Settles O18: the step executes a JP to PC, which leaves PC and memory, and so the word at PC, as they were. -/
theorem parkedStaysParked : Obligations.ParkedStaysParked := by
  intro s h
  obtain ⟨t, hexec, hframe, hend⟩ := exec_completes_at_endPc (i := .jp (BitVec.ofNat 12 s.pc.toNat)) (s := s) rfl
  have hstep : step s = .next t := (step_of_decode_ok h.pc_le h.decodeWord_wordAtPc).trans hexec
  have hpc : t.pc = s.pc := hend.trans (endPc_jp_ofNat h.pc_le)
  have ⟨_, _, _, _, hkept⟩ := hframe
  exact ⟨t, hstep, h.congr hpc (hkept .memory (by simp [partsWritten])), hpc, hframe⟩

/-- Settles O24: JP cannot fault, and its target is a 12-bit address. -/
theorem jumpSetsPc : Obligations.JumpSetsPc := fun nnn s =>
  ⟨_, exec_of_execFault_none rfl, completed_writing (.jp nnn) s, ofNat_imm12_toNat nnn⟩

/-- Settles O25: a slot is free and CALL pushes npc, or the fault of the table is taken. -/
theorem callPushesNpcOrFaults : Obligations.CallPushesNpcOrFaults := fun nnn s =>
  ⟨fun hfree => ⟨_, exec_of_execFault_none (execFault_call_of_lt nnn hfree), completed_writing (.call nnn) s,
      ofNat_imm12_toNat nnn, effect_call_sp nnn hfree, fun _ hk => effect_call_stack nnn hk⟩,
    fun hfull => exec_of_execFault_some (if_pos hfull)⟩

/-- Settles O26: a slot is occupied and RET pops it, or the fault of the table is taken. -/
theorem returnPopsOrFaults : Obligations.ReturnPopsOrFaults := fun dc s =>
  ⟨fun hpos => ⟨_, exec_of_execFault_none (execFault_ret_of_pos dc hpos), completed_writing (.ret dc) s,
      endPc_ret dc hpos, rfl, rfl⟩,
    fun hempty => exec_of_execFault_some (if_pos hempty)⟩

/-- Settles O27: neither skip can fault, and `endPc` compares the same bytes. -/
theorem immediateSkips : Obligations.ImmediateSkips := by
  intro x nn s
  simp only [BitVec.toNat_inj]
  exact ⟨exec_completes_at_endPc rfl, exec_completes_at_endPc rfl⟩

/-- Settles O28: neither skip can fault, and `endPc` compares the same bytes, whatever the don't-care bits. -/
theorem registerSkips : Obligations.RegisterSkips := by
  intro x y dc s
  simp only [BitVec.toNat_inj]
  exact ⟨exec_completes_at_endPc rfl, exec_completes_at_endPc rfl⟩

end Sys2Proof.Machine
end

section
/-!
The statements about register load, arithmetic, logic and shift (spec/42_alu.md): none can fault, so each is read off one of two
ends: one register written, or a flag and then a result computed with that flag in place (R80), from which R92's cases of VF as
an operand follow.
-/

namespace Sys2Proof.Machine

/-! ## The end of an instruction that writes registers alone -/

section
variable {i : Instr} {s : State} {x : Nib}

/-- An instruction that writes one register and no flag. -/
theorem exec_completes_setV {b : Byte} (hf : execFault i s = none) (hw : partsWritten i = [.regs])
    (he : effect i s = s.setV x b) :
    ∃ t, exec i s = .next t ∧ CompletesWriting [.regs] s t ∧ t.v x = b ∧ ∀ r, r ≠ x → t.v r = s.v r := by
  refine ⟨_, exec_of_execFault_none hf, hw ▸ completed_writing i s, ?_, fun r hr => ?_⟩
  · rw [completed_v, he, State.v_setV_self]
  · rw [completed_v, he, State.v_setV_of_ne s b hr]

/-- An instruction that writes a flag and then a result: VF as the destination ends as the result (R80). -/
theorem exec_completes_flagThenResult {f : Byte} {g : State → Byte} (hf : execFault i s = none)
    (hw : partsWritten i = [.regs]) (he : effect i s = s.flagThenResult f x g) :
    ∃ t, exec i s = .next t ∧ CompletesWriting [.regs] s t ∧ (∀ r, r ≠ x → r ≠ 0xF → t.v r = s.v r) ∧
      (x ≠ 0xF → t.v 0xF = f) ∧ t.v x = g (s.setVF f) := by
  refine ⟨_, exec_of_execFault_none hf, hw ▸ completed_writing i s, fun r hx hvf => ?_, fun hx => ?_, ?_⟩
  all_goals rw [completed_v, he, State.v_flagThenResult]
  · rw [if_neg hx, if_neg hvf]
  · rw [if_neg hx.symm, if_pos rfl]
  · rw [if_pos rfl]

end

/-! ## Flags and results in the integers -/

section
variable (a b : Byte)

theorem carryFlag_toNat : (carryFlag a b).toNat = if 255 < a.toNat + b.toNat then 1 else 0 := by
  simp only [carryFlag, flagByte, gt_iff_lt, decide_eq_true_eq]
  split <;> rfl

theorem greaterFlag_toNat : (greaterFlag a b).toNat = if b.toNat < a.toNat then 1 else 0 := by
  simp only [greaterFlag, flagByte, gt_iff_lt, decide_eq_true_eq]
  split <;> rfl

theorem lowBitFlag_toNat : (lowBitFlag a).toNat = a.toNat % 2 := Nat.and_one_is_mod a.toNat

theorem byte_sub_toNat : (a - b).toNat = (256 + a.toNat - b.toNat) % 256 := by bv_omega

theorem byte_shiftRight_one_toNat : (a >>> 1).toNat = a.toNat / 2 := by
  rw [BitVec.toNat_ushiftRight, Nat.shiftRight_one]

theorem byte_shiftLeft_one_toNat : (a <<< 1).toNat = 2 * a.toNat % 256 := by
  rw [BitVec.toNat_shiftLeft, Nat.shiftLeft_eq, Nat.mul_comm, pow_one]

/-- The flag is subtracted from the minuend it was computed for, so nothing wraps: it is 1 only where that is above 0. -/
theorem sub_greaterFlag_toNat : (a - greaterFlag a b).toNat = a.toNat - if b.toNat < a.toNat then 1 else 0 := by
  rw [byte_sub_toNat, greaterFlag_toNat]
  split <;> omega

end

/-! ## The difference of SUB and of SUBN, the flag in place (R88, R90, R92) -/

section
variable (s : State) {p q : Nib}

/-- V[p] - V[q], read after VF has taken the flag of this difference: SUB's result with p = X and q = Y, SUBN's with p = Y
and q = X. -/
def State.flaggedDifference (s : State) (p q : Nib) : Byte :=
  (s.setVF (greaterFlag (s.v p) (s.v q))).v p - (s.setVF (greaterFlag (s.v p) (s.v q))).v q

theorem State.flaggedDifference_self : s.flaggedDifference p p = 0 := BitVec.sub_self _

theorem State.flaggedDifference_toNat (hp : p ≠ 0xF) (hq : q ≠ 0xF) :
    (s.flaggedDifference p q).toNat = (256 + (s.v p).toNat - (s.v q).toNat) % 256 := by
  rw [flaggedDifference, v_setVF, v_setVF, if_neg hp, if_neg hq, byte_sub_toNat]

/-- VF the subtrahend. -/
theorem State.flaggedDifference_vf_toNat (hp : p ≠ 0xF) :
    (s.flaggedDifference p 0xF).toNat = (s.v p).toNat - if (s.v 0xF).toNat < (s.v p).toNat then 1 else 0 := by
  rw [flaggedDifference, v_setVF, v_setVF, if_neg hp, if_pos rfl, sub_greaterFlag_toNat]

/-- VF the minuend. -/
theorem State.vf_flaggedDifference_toNat (hq : q ≠ 0xF) :
    (s.flaggedDifference 0xF q).toNat =
      (256 + (if (s.v q).toNat < (s.v 0xF).toNat then 1 else 0) - (s.v q).toNat) % 256 := by
  rw [flaggedDifference, v_setVF, v_setVF, if_pos rfl, if_neg hq, byte_sub_toNat, greaterFlag_toNat]

end

/-! ## The source of SHR and of SHL, the flag in place (R89, R91, R92) -/

section
variable (s : State) {y : Nib}

/-- V[y], read after VF has taken its bit 0: what SHR and SHL shift. -/
def State.flaggedSource (s : State) (y : Nib) : Byte := (s.setVF (lowBitFlag (s.v y))).v y

theorem State.flaggedSource_of_ne (hy : y ≠ 0xF) : s.flaggedSource y = s.v y := by
  rw [flaggedSource, v_setVF, if_neg hy]

theorem State.flaggedSource_vf : s.flaggedSource 0xF = lowBitFlag (s.v 0xF) := by
  rw [flaggedSource, v_setVF, if_pos rfl]

end

/-! ## The statements -/

/-- Settles O29: LD_IMM writes one register. -/
theorem loadImmediate : Obligations.LoadImmediate := fun _ _ _ => exec_completes_setV rfl rfl rfl

/-- Settles O30: ADD_IMM writes one register, VF only as that one. -/
theorem addImmediateWritesNoFlag : Obligations.AddImmediateWritesNoFlag := by
  intro x nn s
  obtain ⟨t, hexec, hframe, hsum, hkept⟩ := exec_completes_setV (i := .addImm x nn) (s := s) rfl rfl rfl
  exact ⟨t, hexec, hframe, by rw [hsum, BitVec.toNat_add], hkept⟩

/-- Settles O32: each writes one register, VF only as that one, and the operation on bytes is the one on their bits. -/
theorem bitwiseWritesNoFlag : Obligations.BitwiseWritesNoFlag := by
  intro x y s
  obtain ⟨tOr, hexecOr, hframeOr, hor, hkeptOr⟩ := exec_completes_setV (i := .orReg x y) (s := s) rfl rfl rfl
  obtain ⟨tAnd, hexecAnd, hframeAnd, hand, hkeptAnd⟩ := exec_completes_setV (i := .andReg x y) (s := s) rfl rfl rfl
  obtain ⟨tXor, hexecXor, hframeXor, hxor, hkeptXor⟩ := exec_completes_setV (i := .xorReg x y) (s := s) rfl rfl rfl
  exact ⟨⟨tOr, hexecOr, hframeOr, fun _ => by rw [hor, BitVec.getLsbD_or], hkeptOr⟩,
    ⟨tAnd, hexecAnd, hframeAnd, fun _ => by rw [hand, BitVec.getLsbD_and], hkeptAnd⟩,
    ⟨tXor, hexecXor, hframeXor, fun _ => by rw [hxor, BitVec.getLsbD_xor], hkeptXor⟩⟩

/-- Settles O33: the sum is computed before the flag is written, so VF as an operand is the old VF. -/
theorem addRegisterEndValues : Obligations.AddRegisterEndValues := by
  intro x y s
  obtain ⟨t, hexec, hframe, hkept, hflag, hsum⟩ :=
    exec_completes_flagThenResult (i := .addReg x y) (s := s) rfl rfl (by rw [effect])
  refine ⟨t, hexec, hframe, hkept, ?_, fun hx => ?_⟩
  · rw [hsum, BitVec.toNat_add]
  · rw [hflag hx, carryFlag_toNat]

/-- Settles O34: the result is X's difference with Y, by where VF stands in it. -/
theorem subtractEndValues : Obligations.SubtractEndValues := by
  intro x y s
  obtain ⟨t, hexec, hframe, hkept, hflag, (hdiff : t.v x = s.flaggedDifference x y)⟩ :=
    exec_completes_flagThenResult (i := .sub x y) (s := s) rfl rfl (by rw [effect])
  refine ⟨t, hexec, hframe, hkept, fun hx => ?_, fun hx hy => ?_, ?subtrahend, ?minuend, ?both⟩
  · rw [hflag hx, greaterFlag_toNat]
  · rw [hdiff, s.flaggedDifference_toNat hx hy]
  case subtrahend =>
    rintro hx rfl
    rw [hdiff, s.flaggedDifference_vf_toNat hx]
  case minuend =>
    rintro rfl hy
    rw [hdiff, s.vf_flaggedDifference_toNat hy]
  case both =>
    rintro rfl rfl
    rw [hdiff, s.flaggedDifference_self]

/-- Settles O35: the result is Y's difference with X, by where VF stands in it. -/
theorem reverseSubtractEndValues : Obligations.ReverseSubtractEndValues := by
  intro x y s
  obtain ⟨t, hexec, hframe, hkept, hflag, (hdiff : t.v x = s.flaggedDifference y x)⟩ :=
    exec_completes_flagThenResult (i := .subn x y) (s := s) rfl rfl (by rw [effect])
  refine ⟨t, hexec, hframe, hkept, fun hx => ?_, fun hx hy => ?_, ?minuend, ?subtrahend, ?both⟩
  · rw [hflag hx, greaterFlag_toNat]
  · rw [hdiff, s.flaggedDifference_toNat hy hx]
  case minuend =>
    rintro hx rfl
    rw [hdiff, s.vf_flaggedDifference_toNat hx]
  case subtrahend =>
    rintro rfl hy
    rw [hdiff, s.flaggedDifference_vf_toNat hy]
  case both =>
    rintro rfl rfl
    rw [hdiff, s.flaggedDifference_self]

/-- Settles O36: with Y = 15 the source is the new flag, 0 or 1, and the shift leaves nothing of it. -/
theorem shiftRightEndValues : Obligations.ShiftRightEndValues := by
  intro x y s
  obtain ⟨t, hexec, hframe, hkept, hflag, (hshift : t.v x = s.flaggedSource y >>> 1)⟩ :=
    exec_completes_flagThenResult (i := .shr x y) (s := s) rfl rfl (by rw [effect])
  refine ⟨t, hexec, hframe, hkept, fun hx => ?_, fun hy => ?_, ?flag⟩
  · rw [hflag hx, lowBitFlag_toNat]
  · rw [hshift, s.flaggedSource_of_ne hy, byte_shiftRight_one_toNat]
  case flag =>
    rintro rfl
    apply BitVec.eq_of_toNat_eq
    rw [hshift, s.flaggedSource_vf, byte_shiftRight_one_toNat, lowBitFlag_toNat]
    exact Nat.div_eq_of_lt (Nat.mod_lt _ (by decide))

/-- Settles O37: with Y = 15 the source is the new flag, 0 or 1, and its double does not wrap. -/
theorem shiftLeftEndValues : Obligations.ShiftLeftEndValues := by
  intro x y s
  obtain ⟨t, hexec, hframe, hkept, hflag, (hshift : t.v x = s.flaggedSource y <<< 1)⟩ :=
    exec_completes_flagThenResult (i := .shl x y) (s := s) rfl rfl (by rw [effect])
  refine ⟨t, hexec, hframe, hkept, fun hx => ?_, fun hy => ?_, ?flag⟩
  · rw [hflag hx, lowBitFlag_toNat]
  · rw [hshift, s.flaggedSource_of_ne hy, byte_shiftLeft_one_toNat]
  case flag =>
    rintro rfl
    rw [hshift, s.flaggedSource_vf, byte_shiftLeft_one_toNat, lowBitFlag_toNat]
    omega

end Sys2Proof.Machine
end

section
/-!
The statements about instructions that write I alone (spec/43_index_memory.md R96 to R99): none can fault, so each is read off one
end, I set to a word, and what remains is that word as a number.
-/

namespace Sys2Proof.Machine

/-! ## The end of an instruction that writes I alone -/

/-- An instruction that sets I to a word, itself the number `n`. -/
theorem exec_completes_setI {i : Instr} {s : State} {w : Word} {n : Nat} (hf : execFault i s = none)
    (hw : partsWritten i = [.index]) (he : effect i s = s.setI w) (hn : w.toNat = n) :
    ∃ t, exec i s = .next t ∧ CompletesWriting [.index] s t ∧ t.i.toNat = n := by
  refine ⟨_, exec_of_execFault_none hf, hw ▸ completed_writing i s, ?_⟩
  rw [completed_i, he, State.setI_i, hn]

/-! ## The words set, in the integers -/

theorem zextImm_toNat (nnn : Imm12) : (zextImm nnn).toNat = nnn.toNat :=
  BitVec.toNat_setWidth_of_le (by decide)

theorem zextByte_toNat (b : Byte) : (zextByte b).toNat = b.toNat :=
  BitVec.toNat_setWidth_of_le (by decide)

/-- A byte added to a word, modulo 65536 (R98). -/
theorem add_zextByte_toNat (w : Word) (b : Byte) : (w + zextByte b).toNat = (w.toNat + b.toNat) % 65536 := by
  rw [BitVec.toNat_add, zextByte_toNat]

/-- A byte added to a 12-bit address does not wrap: the sum is at most 0x10FE (R97). -/
theorem zextImm_add_zextByte_toNat (nnn : Imm12) (b : Byte) :
    (zextImm nnn + zextByte b).toNat = nnn.toNat + b.toNat := by
  rw [add_zextByte_toNat, zextImm_toNat]
  exact Nat.mod_eq_of_lt (by omega)

theorem glyphAddress_toNat (p : Params) (b : Byte) : (glyphAddress p b).toNat = (p.fontBase + 5 * b.toNat) % 65536 :=
  BitVec.toNat_ofNat _ _

/-! ## The statements -/

/-- Settles O38: LD_I sets I to NNN, and LD_I_V0 to a sum that does not wrap. -/
theorem indexFromImmediate : Obligations.IndexFromImmediate := fun nnn s =>
  ⟨exec_completes_setI rfl rfl rfl (zextImm_toNat nnn),
    exec_completes_setI rfl rfl rfl (zextImm_add_zextByte_toNat nnn (s.v 0))⟩

/-- Settles O39: ADD_I_VX sets I to a sum of words, LD_F_VX to the address of a glyph, both modulo 65536. -/
theorem indexFromRegister : Obligations.IndexFromRegister := fun x s =>
  ⟨exec_completes_setI rfl rfl rfl (add_zextByte_toNat s.i (s.v x)),
    exec_completes_setI rfl rfl rfl (glyphAddress_toNat s.config (s.v x))⟩

end Sys2Proof.Machine
end

section
/-!
The statements about the display (spec/44_display.md): CLS leaves the blank display, and a draw is read cell by cell off its
targets, which are distinct, so that each is plotted once (R107 corner d).
-/

namespace Sys2Proof.Machine

/-! ## What a draw leaves on the canvas -/

section
variable (s : State) (x y n : Nib)

/-- The cells a draw plots, in order. -/
def State.drawTargets : List (Fin 64 × Fin 32) :=
  spriteTargets (fun row => s.byte (s.i.toNat + row)) (s.v x).toNat (s.v y).toNat n.toNat

theorem State.mem_drawTargets {cx : Fin 64} {cy : Fin 32} :
    (cx, cy) ∈ s.drawTargets x y n ↔ spriteCovers s x y n cx cy :=
  mem_spriteTargets_iff_covers s x y n cx cy

/-- At most 15 rows are drawn, so no two wrap onto one (R107 corner d). -/
theorem State.drawTargets_nodup : (s.drawTargets x y n).Nodup :=
  spriteTargets_nodup _ _ _ (by omega)

theorem State.drawn_eq : s.drawn x y n = Canvas.plotAll { disp := s.disp, hit := false } (s.drawTargets x y n) :=
  Canvas.drawSprite_eq _ _ _ _ _

/-- A draw is an XOR of the sprite's 1-bits onto the display. -/
theorem State.cell_drawn (cx : Fin 64) (cy : Fin 32) :
    Display.cell (s.drawn x y n).disp cx cy = (Display.cell s.disp cx cy ^^ decide ((cx, cy) ∈ s.drawTargets x y n)) := by
  rw [s.drawn_eq]
  exact (Canvas.plotAll_spec (s.drawTargets_nodup x y n) _).1 cx cy

variable {s x y n} in
theorem State.cell_drawn_of_covers {cx : Fin 64} {cy : Fin 32} (h : spriteCovers s x y n cx cy) :
    Display.cell (s.drawn x y n).disp cx cy = !Display.cell s.disp cx cy := by
  rw [s.cell_drawn, decide_eq_true ((s.mem_drawTargets x y n).mpr h), Bool.xor_true]

variable {s x y n} in
theorem State.cell_drawn_of_not_covers {cx : Fin 64} {cy : Fin 32} (h : ¬ spriteCovers s x y n cx cy) :
    Display.cell (s.drawn x y n).disp cx cy = Display.cell s.disp cx cy := by
  rw [s.cell_drawn, decide_eq_false (mt (s.mem_drawTargets x y n).mp h), Bool.xor_false]

/-- A draw collides exactly where a covered cell was set beforehand. -/
theorem State.drawn_hit_iff :
    (s.drawn x y n).hit = true ↔ ∃ cx cy, spriteCovers s x y n cx cy ∧ Display.cell s.disp cx cy = true := by
  rw [s.drawn_eq, (Canvas.plotAll_spec (s.drawTargets_nodup x y n) _).2]
  simp [Prod.exists, State.mem_drawTargets]

end

/-! ## The end of a display instruction -/

section
variable (s : State)

/-- VF after DRW (R107). -/
theorem effect_drw_vf (x y n : Nib) : (effect (.drw x y n) s).v 0xF = collisionFlag (s.drawn x y n).hit :=
  State.v_setV_self _ _ _

/-- A draw whose rows all lie in memory, or of no row, takes no fault (R36, R107). -/
theorem execFault_drw_of_inRange {x y n : Nib} (h : n.toNat = 0 ∨ s.i.toNat + n.toNat - 1 ≤ 4095) :
    execFault (.drw x y n) s = none :=
  if_neg (by omega)

end

/-! ## The statements -/

/-- Settles O45: CLS cannot fault, and its effect is the blank display. -/
theorem clearDisplayUnsetsEveryCell : Obligations.ClearDisplayUnsetsEveryCell := fun dc s =>
  ⟨_, exec_of_execFault_none rfl, completed_writing (.cls dc) s, Display.cell_blank⟩

/-- Settles O46: the rows lie in memory and the canvas of the draw is kept, its hit as VF, or the fault of the table is
taken. -/
theorem drawXorsSpriteOrFaults : Obligations.DrawXorsSpriteOrFaults := by
  intro x y n s
  refine ⟨fun hrange => ?_, fun hpos hout => exec_of_execFault_some (if_pos ⟨hpos, hout⟩)⟩
  have hexec := exec_of_execFault_none (execFault_drw_of_inRange s (x := x) (y := y) hrange)
  refine ⟨_, hexec, completed_writing (.drw x y n) s, fun cx cy => State.cell_drawn_of_covers,
    fun cx cy => State.cell_drawn_of_not_covers, fun hset => ?_, fun hunset => ?_, fun r hr => ?_⟩
  · rw [completed_v, effect_drw_vf, (s.drawn_hit_iff x y n).mpr hset]; rfl
  · rw [completed_v, effect_drw_vf, Bool.eq_false_iff.mpr (mt (s.drawn_hit_iff x y n).mp hunset)]; rfl
  · exact effect_v_of_not_mayWriteReg (.drw x y n) s hr

end Sys2Proof.Machine
end

section
/-!
The statements about random bytes, keys and timers (spec/45_keys_timers_random.md R110, R113, R114): none of the instructions can
fault, so each is the effect completed; what remains is the byte that RND draws, and the key that LD_VX_K's scan finds.
-/

namespace Sys2Proof.Machine

/-! ## The byte RND draws (R110, R127) -/

section
variable {s : State}

theorem State.randByte_of_presented {b : Byte} {rest : List Byte} (h : s.rand.queue = b :: rest) : s.randByte = b := by
  rw [State.randByte, h]

theorem State.randByte_of_none_presented (h : s.rand.queue = []) : s.randByte = Config.freeRand s.rand.drawn := by
  rw [State.randByte, h]

theorem effect_rnd_v_self (x : Nib) (nn : Byte) : (effect (.rnd x nn) s).v x = s.randByte &&& nn :=
  State.v_setV_self _ _ _

theorem completed_rnd_rand (x : Nib) (nn : Byte) :
    (completed (.rnd x nn) s).rand = { queue := s.rand.queue.tail, drawn := s.rand.drawn + 1 } := rfl

/-- A masked byte has no bit outside the mask. -/
theorem byte_and_and_not_self (b nn : Byte) : b &&& nn &&& ~~~nn = 0 := by
  rw [BitVec.and_assoc, BitVec.and_not_self]
  exact BitVec.and_zero

/-! ## The scan of the keys, and what LD_VX_K does by its result (R114) -/

/-- The scan finds a pressed key below which none is pressed: some key is found, and a lesser or a greater one would
contradict that it is the least. -/
theorem State.firstKey_of_least {k : Nib} (hk : s.key k = true) (hleast : ∀ j : Nib, j.toNat < k.toNat → s.key j = false) :
    s.firstKey = some k := by
  cases hfirst : s.firstKey with
  | none => exact absurd hk (by simp [State.firstKey_none.mp hfirst k])
  | some k' =>
    obtain ⟨hk', hleast'⟩ := State.firstKey_some hfirst
    have hge : ¬ k'.toNat < k.toNat := fun hlt => by simp [hleast k' hlt] at hk'
    have hle : ¬ k.toNat < k'.toNat := fun hlt => by simp [hleast' k hlt] at hk
    rw [BitVec.eq_of_toNat_eq (by omega : k'.toNat = k.toNat)]

theorem effect_ldVxK_of_firstKey_some (x : Nib) {k : Nib} (h : s.firstKey = some k) :
    effect (.ldVxK x) s = s.setV x (k.setWidth 8) := by
  rw [effect, h]; rfl

theorem effect_ldVxK_of_firstKey_none (x : Nib) (h : s.firstKey = none) : effect (.ldVxK x) s = s := by
  rw [effect, h]; rfl

theorem endPc_ldVxK (x : Nib) : endPc (.ldVxK x) s = if s.firstKey.isSome then s.pc + 2 else s.pc := by
  rw [endPc, anyKeyPressed_eq_isSome_firstKey]

/-- A key code fits a register. -/
theorem key_setWidth_toNat (k : Nib) : (k.setWidth 8).toNat = k.toNat := BitVec.toNat_setWidth_of_le (by decide)

/-- A part that came out as an unwritten one needs no mention among the written. -/
theorem CompletesWriting.erase {ps : List Part} {t : State} {p : Part} (h : CompletesWriting ps s t)
    (hp : KeptByCycle s t p) : CompletesWriting (ps.erase p) s t := by
  obtain ⟨hstatus, hkeys, hfault, hconfig, hkept⟩ := h
  refine ⟨hstatus, hkeys, hfault, hconfig, fun q hq => ?_⟩
  by_cases hqp : q = p
  · exact hqp ▸ hp
  · exact hkept q (mt (List.mem_erase_of_ne hqp).mpr hq)

theorem exec_ldVxK_completes_of_firstKey_some (x : Nib) {k : Nib} (h : s.firstKey = some k) :
    ∃ t, exec (.ldVxK x) s = .next t ∧ CompletesWriting [.regs] s t ∧ (t.v x).toNat = k.toNat ∧
      ∀ r, r ≠ x → t.v r = s.v r := by
  have hpc : (completed (.ldVxK x) s).pc = s.pc + 2 := (endPc_ldVxK x).trans (if_pos (by rw [h]; rfl))
  refine ⟨_, exec_of_execFault_none rfl, (completed_writing (.ldVxK x) s).erase (p := .pc) hpc, ?_,
    fun r hr => effect_v_of_not_mayWriteReg (.ldVxK x) s hr⟩
  rw [completed_v, effect_ldVxK_of_firstKey_some x h, State.v_setV_self, key_setWidth_toNat]

theorem exec_ldVxK_stays_of_firstKey_none (x : Nib) (h : s.firstKey = none) :
    ∃ t, exec (.ldVxK x) s = .next t ∧ CompletesWriting [.pc] s t ∧ t.pc = s.pc := by
  have hregs : ∀ r, (completed (.ldVxK x) s).v r = s.v r := fun r => by
    rw [completed_v, effect_ldVxK_of_firstKey_none x h]
  exact ⟨_, exec_of_execFault_none rfl, (completed_writing (.ldVxK x) s).erase (p := .regs) hregs,
    (endPc_ldVxK x).trans (if_neg (by simp [h]))⟩

end

/-! ## The statements -/

/-- Settles O48: the drawn byte is the head of the queue, or the free value where that is empty, and the tail is left. -/
theorem randomAndConsumesOneByte : Obligations.RandomAndConsumesOneByte := by
  intro x nn s
  have hv : (completed (.rnd x nn) s).v x = s.randByte &&& nn := effect_rnd_v_self x nn
  refine ⟨_, exec_of_execFault_none rfl, completed_writing (.rnd x nn) s, fun b rest hq => ⟨?_, ?_⟩, fun hq => ⟨?_, ?_⟩,
    rfl, ?masked, fun r hr => effect_v_of_not_mayWriteReg (.rnd x nn) s hr⟩
  · rw [hv, State.randByte_of_presented hq]
  · rw [completed_rnd_rand, hq, List.tail_cons]
  · rw [hv, State.randByte_of_none_presented hq]
  · rw [completed_rnd_rand, hq, List.tail_nil]
  case masked => rw [hv, byte_and_and_not_self]

/-- Settles O50: the scan finds the least pressed key, or none where none is pressed. -/
theorem keyWaitTakesLeastKeyOrStays : Obligations.KeyWaitTakesLeastKeyOrStays := fun x _ =>
  ⟨fun _ hk hleast => exec_ldVxK_completes_of_firstKey_some x (State.firstKey_of_least hk hleast),
    fun hnone => exec_ldVxK_stays_of_firstKey_none x (State.firstKey_none.mpr hnone)⟩

/-- Settles O51: LD_VX_DT writes one register, with DT of the start state. -/
theorem readDelayTimer : Obligations.ReadDelayTimer := fun _ _ => exec_completes_setV rfl rfl rfl

end Sys2Proof.Machine
end

section
/-!
The statement about FAULT along the host's moves (spec/46_host_operations.md R129): only a cycle and reset write the record, and
of these only reset clears its sticky bit.
-/

namespace Sys2Proof.Machine

section
variable {s : State}

/-! ## What a move writes of FAULT -/

/-- A completed cycle leaves the whole record (R24). -/
theorem completed_fault (i : Instr) (s : State) : (completed i s).fault = s.fault := effect_fault i s

/-- A load writes bytes of memory, or nothing at all (R122). -/
theorem State.load_fault (s : State) (bytes : List Byte) : (s.load bytes).2.fault = s.fault := by
  unfold State.load
  split_ifs
  · exact s.storeBytes_fault _ bytes
  · rfl

theorem step_fault_of_status_zero {t : State} (h : step s = .next t) (hstatus : t.status = 0) : t.fault = s.fault := by
  obtain ⟨kind, w, addr, hk, rfl⟩ | ⟨-, i, -, rfl⟩ := step_cases h
  · exact absurd hstatus hk
  · exact completed_fault i s

/-- A faulting cycle sets the bit itself, and a completed one leaves it. -/
theorem step_keeps_fault_valid {t : State} (h : step s = .next t) (hvalid : s.fault.valid = true) :
    t.fault.valid = true := by
  obtain ⟨kind, w, addr, -, rfl⟩ | ⟨-, i, -, rfl⟩ := step_cases h
  · rfl
  · rwa [completed_fault]

theorem State.cycle_keeps_fault_valid (hvalid : s.fault.valid = true) : s.cycle.fault.valid = true := by
  unfold State.cycle
  split
  · next t h => exact step_keeps_fault_valid h hvalid
  · exact hvalid

end

/-! ## The statement -/

/-- Settles O17, move by move: a cycle keeps the bit, and every other move but reset keeps the record. -/
theorem faultValidIsSticky : Obligations.FaultValidIsSticky := by
  refine ⟨fun s op hop hvalid => ?_, fun s t => step_fault_of_status_zero⟩
  cases op with
  | reset => exact absurd rfl hop
  | load bytes => exact (congrArg FaultRecord.valid (s.load_fault bytes)).trans hvalid
  | cycle => exact s.cycle_keeps_fault_valid hvalid
  | pressKey code | releaseKey code | presentRand bytes => exact hvalid

end Sys2Proof.Machine
end

section
/-!
The statement about the FAULT record (spec/10_state.md R24): each fault of R130's table writes a legal record, and a completed
cycle leaves the record alone.
-/

namespace Sys2Proof.Machine

section
variable {i : Instr} {s : State}

/-! ## The records of faulting cycles (R24, R130) -/

theorem outOfRangeAddr_toNat_ge (a : Word) : 4096 ≤ (outOfRangeAddr a).toNat := by
  rw [outOfRangeAddr, BitVec.toNat_ofNat]
  omega

/-- The record of a faulting cycle is legal where its address is one of its kind. -/
theorem faulted_fault_legal_iff {kind : BitVec 3} {w addr : Word} :
    (faulted s kind w addr).fault.Legal ↔
      (kind = 1 ∧ addr = 0) ∨ (kind = 2 ∧ 4096 ≤ addr.toNat) ∨ (kind = 3 ∧ (addr = 0 ∨ addr = 16)) ∨
        (kind = 4 ∧ 16 ≤ addr.toNat ∧ addr.toNat ≤ 255) :=
  Iff.of_eq (if_pos rfl)

theorem faulted_invalidOpcode_legal (w : Word) : (faulted s 1 w 0).fault.Legal :=
  faulted_fault_legal_iff.mpr (.inl ⟨rfl, rfl⟩)

theorem faulted_memoryFault_legal (w a : Word) : (faulted s 2 w (outOfRangeAddr a)).fault.Legal :=
  faulted_fault_legal_iff.mpr (.inr (.inl ⟨rfl, outOfRangeAddr_toNat_ge a⟩))

theorem faulted_stackFault_legal (w : Word) {addr : Word} (h : addr = 0 ∨ addr = 16) : (faulted s 3 w addr).fault.Legal :=
  faulted_fault_legal_iff.mpr (.inr (.inr (.inl ⟨rfl, h⟩)))

/-- FAULT.addr of a KeypadFault is a register's value, so a byte. -/
theorem faulted_keypadFault_legal (w : Word) {b : Byte} (h : 15 < b.toNat) :
    (faulted s 4 w (BitVec.ofNat 16 b.toNat)).fault.Legal := by
  refine faulted_fault_legal_iff.mpr (.inr (.inr (.inr ⟨rfl, ?_⟩)))
  rw [BitVec.toNat_ofNat]
  omega

/-- A fault of the execute phase is one of an access through I, of the stack or of a key code. -/
theorem faulted_legal_of_execFault {kind : BitVec 3} {addr : Word} (h : execFault i s = some (kind, addr)) (w : Word) :
    (faulted s kind w addr).fault.Legal := by
  cases i
  case drw | ldBVx | ldMemVx | ldVxMem =>
    obtain ⟨-, rfl, rfl⟩ : _ ∧ 2 = kind ∧ outOfRangeAddr s.i = addr := by simpa [execFault] using h
    exact faulted_memoryFault_legal w s.i
  case call =>
    obtain ⟨-, rfl, rfl⟩ : _ ∧ 3 = kind ∧ 16 = addr := by simpa [execFault] using h
    exact faulted_stackFault_legal w (.inr rfl)
  case ret =>
    obtain ⟨-, rfl, rfl⟩ : _ ∧ 3 = kind ∧ 0 = addr := by simpa [execFault] using h
    exact faulted_stackFault_legal w (.inl rfl)
  case skp x dc | sknp x dc =>
    obtain ⟨hcode, rfl, rfl⟩ : 15 < (s.v x).toNat ∧ 4 = kind ∧ BitVec.ofNat 16 (s.v x).toNat = addr := by
      simpa [execFault] using h
    exact faulted_keypadFault_legal w hcode
  all_goals cases h

/-- Whatever phase faults, the record is legal (R136). -/
theorem faulted_legal_of_cycleFault {kind : BitVec 3} {w addr : Word} (h : cycleFault s = some (kind, w, addr)) :
    (faulted s kind w addr).fault.Legal := by
  by_cases hpc : s.pc.toNat ≤ 4094
  case neg =>
    rw [cycleFault_of_fetch_fails (by omega)] at h
    cases h
    exact faulted_memoryFault_legal 0 s.pc
  case pos =>
    cases hd : decodeWord (wordAtPc s) with
    | error e =>
      rw [cycleFault_of_decode_error hpc hd] at h
      cases h
      exact faulted_invalidOpcode_legal (wordAtPc s)
    | ok i =>
      rw [cycleFault_of_decode_ok hpc hd] at h
      obtain ⟨f, hf, heq⟩ := Option.map_eq_some_iff.mp h
      cases heq
      exact faulted_legal_of_execFault hf (wordAtPc s)

/-- A step takes the one fault of `cycleFault`, or completes and leaves FAULT alone. -/
theorem step_fault_cases {t : State} (h : step s = .next t) :
    (∃ kind w addr, cycleFault s = some (kind, w, addr) ∧ t = faulted s kind w addr) ∨
      (t.status = 0 ∧ t.fault = s.fault) := by
  have hend := everyCycleIsOkOrItsOneFault s
  cases hf : cycleFault s with
  | some f =>
    rw [hf] at hend
    exact .inl ⟨_, _, _, rfl, Host.Outcome.next.inj (h.symm.trans hend)⟩
  | none =>
    rw [hf] at hend
    obtain ⟨t', ht', hstatus, hfault⟩ := hend
    obtain rfl : t = t' := Host.Outcome.next.inj (h.symm.trans ht')
    exact .inr ⟨hstatus, hfault⟩

end

/-! ## The statement -/

/-- Settles O21: a faulting cycle writes a legal record, and a completed one leaves the old record. -/
theorem stepKeepsFaultRecordLegal : Obligations.StepKeepsFaultRecordLegal := by
  intro s t hlegal h
  obtain ⟨kind, w, addr, hf, rfl⟩ | ⟨-, hfault⟩ := step_fault_cases h
  · exact faulted_legal_of_cycleFault hf
  · rwa [hfault]

end Sys2Proof.Machine
end

section
/-!
The machine's invariant (spec/10_state.md R28, spec/46_host_operations.md R129): the state after reset meets it, with the values
of R28, and every move of the host keeps it.
-/

namespace Sys2Proof.Machine

/-! ## Configurations R5 allows -/

section
variable {p : Params}

theorem Params.wellFormed_iff :
    p.wellFormed = true ↔ p.programStart + 2 ≤ 4096 ∧ p.fontBase + 80 ≤ 4096 ∧ p.fontData.length = 80 := by
  simp only [Params.wellFormed, Params.startFits, Params.fontFits, Params.fontSized, Bool.and_eq_true, decide_eq_true_eq,
    beq_iff_eq, and_assoc]

theorem params_wellFormed : params.wellFormed = true := by decide

/-! ## The state after reset -/

/-- PROGRAM_START is an address, so PC holds it whole (R5, R28). -/
theorem resetWith_pc_toNat (h : p.wellFormed = true) : (State.resetWith p).pc.toNat = p.programStart := by
  obtain ⟨hstart, -⟩ := Params.wellFormed_iff.mp h
  exact Nat.mod_eq_of_lt (by omega)

theorem resetWith_v (p : Params) (r : Nib) : (State.resetWith p).v r = 0 := Vector.getElem_replicate _

theorem resetWith_stack (p : Params) {k : Nat} (hk : k < 16) : (State.resetWith p).stack[k] = 0 :=
  Vector.getElem_replicate _

theorem resetWith_key (p : Params) (k : Nib) : (State.resetWith p).key k = false := Vector.getElem_replicate _

/-- Memory after reset is the reset image (R28). -/
theorem resetWith_byte (p : Params) (a : Nat) : (State.resetWith p).byte a = Memory.initial p a := rfl

theorem Memory.initial_font (h : p.fontData.length = 80) {k : Nat} (hk : k < p.fontData.length) :
    Memory.initial p (p.fontBase + k) = p.fontData[k] := by
  rw [Memory.initial, if_pos (by simp only [Config.fontBytes]; omega), Nat.add_sub_cancel_left, List.getD_eq_getElem _ _ hk]

theorem Memory.initial_outside_font {a : Nat} (h : a < p.fontBase ∨ p.fontBase + 80 ≤ a) : Memory.initial p a = 0 :=
  if_neg (by simp only [Config.fontBytes]; omega)

theorem FaultRecord.clear_legal : FaultRecord.clear.Legal := ⟨rfl, rfl, rfl, rfl⟩

/-- No slot is occupied after reset. -/
theorem resetWith_pcBounded (h : p.wellFormed = true) : (State.resetWith p).PcBounded := by
  obtain ⟨hstart, -⟩ := Params.wellFormed_iff.mp h
  refine ⟨?_, fun k _ hocc => absurd hocc (Nat.not_lt_zero k)⟩
  rw [resetWith_pc_toNat h]
  omega

theorem resetWith_inv (h : p.wellFormed = true) : (State.resetWith p).Inv :=
  ⟨h, Memory.wf_reset, resetWith_pcBounded h, FaultRecord.clear_legal, Nat.zero_le 4⟩

end

/-- Settles O22: nothing is listed, occupied or recorded after reset, and the defaults meet R5's constraints. -/
theorem resetMeetsInvariant : Obligations.ResetMeetsInvariant :=
  ⟨fun _ => resetWith_inv, resetWith_inv params_wellFormed⟩

/-- Settles O53: registers, stack, keys and display are filled with one value, and memory reads as the reset image. -/
theorem resetValues : Obligations.ResetValues := by
  refine ⟨fun p h => ?_, rfl⟩
  obtain ⟨-, -, hsize⟩ := Params.wellFormed_iff.mp h
  exact ⟨resetWith_v p, rfl, resetWith_pc_toNat h, fun _ => resetWith_stack p, rfl, rfl, rfl, resetWith_key p,
    Display.cell_blank, fun _ hk => (resetWith_byte p _).trans (Memory.initial_font hsize hk),
    fun a _ ha => (resetWith_byte p a).trans (Memory.initial_outside_font ha), rfl, rfl⟩

section
variable {s : State}

/-! ## A cycle keeps the invariant -/

/-- A requested cycle is a step, which always answers a next state (R67, R123). -/
theorem State.step_eq_next_cycle (s : State) : step s = .next s.cycle := by
  obtain ⟨⟨t, ht, -⟩, -⟩ := stepIsCycleOfCoreStateAndByte s
  rw [State.cycle_of_step ht, ht]

theorem State.cycle_config (s : State) : s.cycle.config = s.config := by
  obtain ⟨⟨t, ht, -, hconfig, -⟩, -⟩ := stepIsCycleOfCoreStateAndByte s
  rw [State.cycle_of_step ht, hconfig]

theorem FaultRecord.Legal.kind_toNat_le {r : FaultRecord} (h : r.Legal) : r.kind.toNat ≤ 4 := by
  unfold FaultRecord.Legal at h
  split at h
  · obtain ⟨hk, -⟩ | ⟨hk, -⟩ | ⟨hk, -⟩ | ⟨hk, -⟩ := h <;> rw [hk] <;> decide
  · rw [h.1]; decide

/-- A cycle answers 0, or the kind of the legal record it writes (R120). -/
theorem step_status_le {t : State} (h : step s = .next t) : t.status.toNat ≤ 4 := by
  obtain ⟨kind, w, addr, hf, rfl⟩ | ⟨hstatus, -⟩ := step_fault_cases h
  · exact (faulted_legal_of_cycleFault hf).kind_toNat_le
  · rw [hstatus]; decide

theorem State.cycle_inv (h : s.Inv) : s.cycle.Inv := by
  obtain ⟨hconfig, hmem, hpc, hfault, -⟩ := h
  have hstep := s.step_eq_next_cycle
  exact ⟨by rwa [s.cycle_config], stepKeepsMemoryCanonical s _ hmem hstep, stepKeepsPcBounded s _ hpc hstep,
    stepKeepsFaultRecordLegal s _ hfault hstep, step_status_le hstep⟩

/-! ## The other moves keep the invariant -/

theorem State.load_of_fits {bytes : List Byte} (h : bytes.length ≤ 4096 - s.config.programStart) :
    s.load bytes = (true, s.storeBytes s.config.programStart bytes) :=
  if_pos (decide_eq_true h)

theorem State.load_of_not_fits {bytes : List Byte} (h : 4096 - s.config.programStart < bytes.length) :
    s.load bytes = (false, s) :=
  if_neg fun hfits => absurd (of_decide_eq_true hfits) (Nat.not_le_of_lt h)

/-- A load that fits ends inside memory, since PROGRAM_START lies there (R5, R122). -/
theorem State.load_inv (h : s.Inv) (bytes : List Byte) : (s.load bytes).2.Inv := by
  by_cases hfits : bytes.length ≤ 4096 - s.config.programStart
  · rw [State.load_of_fits hfits]
    obtain ⟨hconfig, hmem, hrest⟩ := h
    obtain ⟨hstart, -⟩ := Params.wellFormed_iff.mp hconfig
    exact ⟨hconfig, Memory.wf_writeBytes hmem (by simp only [Config.memSize]; omega), hrest⟩
  · rwa [State.load_of_not_fits (by omega)]

theorem State.hostReset_inv (h : s.Inv) : s.hostReset.Inv := resetWith_inv h.1

theorem State.apply_inv (h : s.Inv) (op : HostOp) : (s.apply op).Inv := by
  cases op with
  | reset => exact State.hostReset_inv h
  | load bytes => exact State.load_inv h bytes
  | cycle => exact State.cycle_inv h
  | pressKey code | releaseKey code | presentRand bytes => exact h

end

/-- Settles O23, move by move. -/
theorem hostMovesKeepInvariant : Obligations.HostMovesKeepInvariant := by
  intro s ops h
  induction ops generalizing s with
  | nil => exact h
  | cons op ops ih => exact ih (s.apply op) (State.apply_inv h op)

end Sys2Proof.Machine
end

section
/-!
The statements about what a dump or a draw leaves for the next reader: the load and the fetch after LD_MEM_VX
(spec/43_index_memory.md R102, spec/20_memory.md R42), and the second DRW of a sprite (spec/44_display.md R108).
-/

namespace Sys2Proof.Machine

/-- A cycle that answers Ok took no fault, and so ends in the effect of its instruction. -/
theorem exec_completed_of_status_zero {i : Instr} {s t : State} (h : exec i s = .next t) (hstatus : t.status = 0) :
    execFault i s = none ∧ t = completed i s := by
  obtain ⟨kind, addr, hk, rfl⟩ | hdone := exec_cases h
  · exact absurd hstatus hk
  · exact hdone

/-! ## After a register dump -/

section
variable {x : Nib} {s : State}

/-- A dump and a load of the same block take the same fault. -/
theorem execFault_ldVxMem_eq_ldMemVx {u : State} (hi : u.i = s.i) :
    execFault (.ldVxMem x) u = execFault (.ldMemVx x) s := by
  simp only [execFault, hi]

theorem execFault_ldMemVx_eq_none_iff : execFault (.ldMemVx x) s = none ↔ s.i.toNat + x.toNat ≤ 4095 := by
  simp [execFault]

/-- Byte I + k of a dump is V[k] (R101). -/
theorem completed_ldMemVx_byte {k : Nib} (hk : k.toNat ≤ x.toNat) :
    (completed (.ldMemVx x) s).byte (s.i.toNat + k.toNat) = s.v k := by
  rw [completed_byte, effect_ldMemVx_byte, if_pos (by omega), Nat.add_sub_cancel_left, BitVec.ofNat_toNat,
    BitVec.setWidth_eq]

end

/-- Settles O43: the load reads the bytes of the dump, and both move I by the same block. -/
theorem dumpThenLoadRecovers : Obligations.DumpThenLoadRecovers := by
  intro x s t u h hstatus hbyte hi
  obtain ⟨hf, rfl⟩ := exec_completed_of_status_zero h hstatus
  have hload : exec (.ldVxMem x) u = .next (completed (.ldVxMem x) u) :=
    exec_of_execFault_none ((execFault_ldVxMem_eq_ldMemVx hi).trans hf)
  refine ⟨_, hload, rfl, congrArg (· + BitVec.ofNat 16 (blockLength x)) hi, fun k hk => ?_⟩
  rw [completed_v, effect_ldVxMem_v, if_pos hk, hi, hbyte, completed_ldMemVx_byte hk]

/-- Settles O44: the two bytes lie below 4096, so the fetch at I + k reads them and joins them. -/
theorem storeIsSeenByNextFetch : Obligations.StoreIsSeenByNextFetch := by
  intro x s t h hstatus k hk
  obtain ⟨hf, rfl⟩ := exec_completed_of_status_zero h hstatus
  have hrange : s.i.toNat + x.toNat ≤ 4095 := execFault_ldMemVx_eq_none_iff.mp hf
  have hpc : (s.i + k.setWidth 16).toNat = s.i.toNat + k.toNat := by bv_omega
  have hnext : (k + 1).toNat = k.toNat + 1 := by bv_omega
  have hhi : (completed (.ldMemVx x) s).byte (s.i.toNat + k.toNat) = s.v k := completed_ldMemVx_byte (by omega)
  have hlo : (completed (.ldMemVx x) s).byte (s.i.toNat + k.toNat + 1) = s.v (k + 1) := by
    rw [Nat.add_assoc, ← hnext]
    exact completed_ldMemVx_byte (by omega)
  rw [State.fetch_eq (by rw [State.setPc_pc]; omega), wordAtPc]
  simp only [State.setPc_pc, State.setPc_byte, hpc, hhi, hlo]

/-! ## After a draw -/

section
variable {x y n : Nib} {s u : State}

theorem spriteCovers_congr (hbyte : ∀ a, u.byte a = s.byte a) (hi : u.i = s.i) (hx : u.v x = s.v x) (hy : u.v y = s.v y)
    (cx : Fin 64) (cy : Fin 32) : spriteCovers u x y n cx cy ↔ spriteCovers s x y n cx cy := by
  simp only [spriteCovers, hbyte, hi, hx, hy]

theorem collisionFlag_eq_one_iff {hit : Bool} : collisionFlag hit = 1 ↔ hit = true := by
  cases hit <;> decide

section
variable (hdisp : u.disp = (s.drawn x y n).disp) (hcovers : ∀ cx cy, spriteCovers u x y n cx cy ↔ spriteCovers s x y n cx cy)
include hdisp hcovers

/-- Each covered cell is inverted twice, and no other is touched (R108). -/
theorem State.drawn_twice_disp : (u.drawn x y n).disp = s.disp := by
  apply Display.ext
  intro cx cy
  by_cases hc : spriteCovers s x y n cx cy
  · rw [State.cell_drawn_of_covers ((hcovers cx cy).mpr hc), hdisp, State.cell_drawn_of_covers hc, Bool.not_not]
  · rw [State.cell_drawn_of_not_covers (mt (hcovers cx cy).mp hc), hdisp, State.cell_drawn_of_not_covers hc]

/-- The second draw hits the covered cells that the first one set, which were unset before it (R108). -/
theorem State.drawn_twice_hit_iff :
    (u.drawn x y n).hit = true ↔ ∃ cx cy, spriteCovers s x y n cx cy ∧ Display.cell s.disp cx cy = false := by
  rw [State.drawn_hit_iff]
  refine exists_congr fun cx => exists_congr fun cy => ?_
  rw [hcovers]
  refine and_congr_right fun hc => ?_
  rw [hdisp, State.cell_drawn_of_covers hc, Bool.not_eq_true']

end

end

/-- Settles O47: the second draw targets the cells of the first, inverts them again, and hits those the first one set. -/
theorem drawTwiceRestoresDisplay : Obligations.DrawTwiceRestoresDisplay := by
  intro x y n s t u h hstatus hdisp hbyte hi hx hy
  obtain ⟨hf, rfl⟩ := exec_completed_of_status_zero h hstatus
  have hcovers := spriteCovers_congr (n := n) hbyte hi hx hy
  have hfu : execFault (.drw x y n) u = none := by rw [← hf, execFault, execFault, hi]
  refine ⟨_, exec_of_execFault_none hfu, rfl, State.drawn_twice_disp hdisp hcovers, ?_⟩
  rw [completed_v, effect_drw_vf, collisionFlag_eq_one_iff]
  exact State.drawn_twice_hit_iff hdisp hcovers

end Sys2Proof.Machine
end

section
/-!
The statements about LD_REG and the key skips (spec/42_alu.md R83, spec/45_keys_timers_random.md R111, R112): each is the effect
completed, or the table's fault taken.
-/

namespace Sys2Proof.Machine

/-- Settles O31: LD_REG writes one register. -/
theorem moveCopiesRegister : Obligations.MoveCopiesRegister := fun _ _ _ => exec_completes_setV rfl rfl rfl

section
variable {x : Nib} {dc : BitVec 4} {s : State}

/-- A key code names its key (R111). -/
theorem keyOfReg_of_lt (h : (s.v x).toNat < 16) : keyOfReg s x = s.keys[(s.v x).toNat] := by
  rw [keyOfReg, List.getD_eq_getElem _ _ (by simpa using h), Vector.getElem_toList]

theorem execFault_skp_of_lt (h : (s.v x).toNat < 16) : execFault (.skp x dc) s = none := if_neg (by omega)

theorem execFault_sknp_of_lt (h : (s.v x).toNat < 16) : execFault (.sknp x dc) s = none := if_neg (by omega)

end

/-- Settles O49: V[X] names a key and `endPc` reads it, or the fault of the table is taken. -/
theorem keySkipsOrFault : Obligations.KeySkipsOrFault := by
  intro x dc s
  refine ⟨fun hcode => ?_, fun hcode => ⟨exec_of_execFault_some (if_pos hcode), exec_of_execFault_some (if_pos hcode)⟩⟩
  rw [← keyOfReg_of_lt hcode]
  exact ⟨exec_completes_at_endPc (execFault_skp_of_lt hcode), exec_completes_at_endPc (execFault_sknp_of_lt hcode)⟩

end Sys2Proof.Machine
end

section
/-!
The statements about the host's moves and reads (spec/46_host_operations.md R121 to R129): what load, reset, press, release and
presenting bytes write, and the layout of the snapshot.
-/

namespace Sys2Proof.Machine

/-! ## Load -/

section
variable {s : State} {base : Nat} {bytes : List Byte}

theorem State.byte_storeBytes_inside {k : Nat} (hk : k < bytes.length) :
    (s.storeBytes base bytes).byte (base + k) = bytes[k] := by
  rw [State.byte_storeBytes, if_pos (by omega), Nat.add_sub_cancel_left, List.getD_eq_getElem _ _ hk]

theorem State.byte_storeBytes_outside {a : Nat} (ha : a < base ∨ base + bytes.length ≤ a) :
    (s.storeBytes base bytes).byte a = s.byte a := by
  rw [State.byte_storeBytes, if_neg (by omega)]

/-- A load writes memory alone, or nothing (R122). -/
theorem State.load_eq_withMem (s : State) (bytes : List Byte) : (s.load bytes).2 = { s with mem := (s.load bytes).2.mem } := by
  by_cases hfits : bytes.length ≤ 4096 - s.config.programStart
  · rw [State.load_of_fits hfits]; rfl
  · rw [State.load_of_not_fits (by omega)]

theorem State.load_byte_below (bytes : List Byte) {a : Nat} (ha : a < s.config.programStart) :
    (s.load bytes).2.byte a = s.byte a := by
  by_cases hfits : bytes.length ≤ 4096 - s.config.programStart
  · rw [State.load_of_fits hfits, State.byte_storeBytes_outside (.inl ha)]
  · rw [State.load_of_not_fits (by omega)]

end

/-- Settles O56: a sequence that fits is one run of stores from PROGRAM_START, and any other is rejected. -/
theorem loadWritesProgramOrRejects : Obligations.LoadWritesProgramOrRejects := fun _ _ =>
  ⟨fun hfits => ⟨_, State.load_of_fits hfits, rfl, fun _ => State.byte_storeBytes_inside,
      fun _ => State.byte_storeBytes_outside⟩,
    State.load_of_not_fits⟩

/-! ## Reset -/

section
variable (s : State)

theorem State.hostReset_eq : s.hostReset = { State.resetWith s.config with rand := s.rand } := rfl

theorem State.load_config (bytes : List Byte) : (s.load bytes).2.config = s.config := by
  rw [s.load_eq_withMem]

/-- No move changes the configuration (R5). -/
theorem State.apply_config (op : HostOp) : (s.apply op).config = s.config := by
  cases op with
  | load bytes => exact s.load_config bytes
  | cycle => exact s.cycle_config
  | reset | pressKey code | releaseKey code | presentRand bytes => rfl

theorem State.applyAll_config (ops : List HostOp) : (s.applyAll ops).config = s.config := by
  induction ops generalizing s with
  | nil => rfl
  | cons op ops ih => exact (ih (s.apply op)).trans (s.apply_config op)

theorem State.applyAll_append_singleton (ops : List HostOp) (op : HostOp) :
    s.applyAll (ops ++ [op]) = (s.applyAll ops).apply op :=
  List.foldl_append

end

/-- Settles O54: the last move is the reset, and the moves before it have left the configuration alone. -/
theorem hostResetFromAnyState : Obligations.HostResetFromAnyState := by
  intro s ops
  rw [State.applyAll_append_singleton, State.apply, State.hostReset_eq, s.applyAll_config]

/-! ## Every move but reset and cycle -/

/-- Settles O55, move by move: a load writes memory from PROGRAM_START up, a press or a release KEY, and presented bytes the
queue of the port. -/
theorem hostWritesOnlyProgramKeysAndPort : Obligations.HostWritesOnlyProgramKeysAndPort := by
  intro s op hreset hcycle
  cases op with
  | reset => exact absurd rfl hreset
  | cycle => exact absurd rfl hcycle
  | load bytes =>
    have hwrites : s.apply (.load bytes) = { s with mem := (s.apply (.load bytes)).mem } := s.load_eq_withMem bytes
    exact ⟨by rw [hwrites], fun _ => State.load_byte_below bytes, by rw [hwrites]⟩
  | pressKey code | releaseKey code | presentRand bytes => exact ⟨rfl, fun _ _ => rfl, rfl⟩

/-- Settles O57: a press and a release write one bit of KEY. -/
theorem pressAndReleaseOneKey : Obligations.PressAndReleaseOneKey := fun s c =>
  ⟨s.key_setKey c true, s.key_setKey c false, rfl, rfl⟩

/-! ## The snapshot -/

/-- Settles O58: 64 cells make a row, so the quotient of the bit's number by 64 is its row and the rest its column. -/
theorem snapshotIsRowMajor : Obligations.SnapshotIsRowMajor := by
  intro s x y k hk
  have hcol : Fin.ofNat 64 (k.val % 64) = x := Fin.ext (by rw [Fin.val_ofNat]; omega)
  have hrow : Fin.ofNat 32 (k.val / 64) = y := Fin.ext (by rw [Fin.val_ofNat]; omega)
  exact ⟨by rw [State.dispOut, hcol, hrow, State.snapshot], rfl⟩

end Sys2Proof.Machine
end
